-- ==== Sys2Proof/Word.lean ====
section
/-! DEFINITION. The word types of the CORE (spec/00_scope.md R7, R9): all values are unsigned, bit 0 is the
least significant bit. -/

namespace Sys2Proof

/-- An 8-bit quantity: a general register, a memory cell, a timer, the field `kk`. -/
abbrev Byte := BitVec 8

/-- A 16-bit quantity: an instruction word, `PC`, `I`, a stack cell. -/
abbrev Word := BitVec 16

/-- A 4-bit quantity: a register number, a key code, the count `n`. -/
abbrev Nibble := BitVec 4

/-- The 12-bit address field `nnn`. -/
abbrev Addr12 := BitVec 12

end Sys2Proof
end

