-- ==== Sys2Proof/Config.lean ====
section
/-! DEFINITION. What an implementation fixes: the fixed parameters of spec/00_scope.md R7 and the types of the
open parameters of R8. The default values stand in Machine/Defaults.lean. -/

namespace Sys2Proof.Config

/-- `MEM_SIZE` (R7): addresses 0..4095. -/
def memSize : Nat := 4096

/-- `FONT_BASE` (R7). -/
def fontBase : Nat := 0x050

/-- `FONT_SIZE` (R7). -/
def fontSize : Nat := 80

/-- `PROG_BASE` (R7). -/
def progBase : Nat := 0x200

/-- `PROG_MAX` (R7). -/
def progMax : Nat := 3584

/-- `FB_W` (R7). -/
def fbW : Nat := 64

/-- `FB_H` (R7). -/
def fbH : Nat := 32

/-- `GLYPH_BASE` (R8, D15): what `Fx29` adds, `0x000` or `0x050`. -/
inductive GlyphBase where
  | zero
  | font
  deriving DecidableEq, Repr

/-- `SHIFT_SRC` (R8, D10): the register that `8xy6` and `8xyE` shift. -/
inductive ShiftSrc where
  | vx
  | vy
  deriving DecidableEq, Repr

/-- `KEY_OOR` (R8, D13): what a key code of 16 or more reads as. -/
inductive KeyOor where
  | notPressed
  | low4
  deriving DecidableEq, Repr

/-- The open parameters of R8 that a model takes as arguments (`OOR_POLICY` and `I_WRAP` have one value each, and
`TICK_HZ` no rule uses). They are fixed for a machine: no event writes them. -/
structure Params where
  /-- `FONT[0..79]` (R41, D19). -/
  font : Vector Byte 80
  /-- `GLYPH_BASE`. -/
  glyphBase : GlyphBase
  /-- `SUB_EQ_FLAG` (D16): `VF` of `8xy5` and `8xy7` on equal operands, 0 or 1. -/
  subEqFlag : Bool
  /-- `SHIFT_SRC`. -/
  shiftSrc : ShiftSrc
  /-- `LDST_INC` (D11): whether `Fx55` and `Fx65` advance `I`. -/
  ldstInc : Bool
  /-- `KEY_OOR`. -/
  keyOor : KeyOor
  deriving DecidableEq, Repr

end Sys2Proof.Config
end

