-- ==== Sys2Proof/Syntax.lean ====
section
/-! DEFINITION. The instructions: one constructor per row of spec/opcode_table.json (spec/30_encoding.md R100), in
the table's order, with the operand fields of R92 at their widths (R95: any value of a field is legal). -/

namespace Sys2Proof

/-- The mnemonics of R100, one per row. -/
inductive Mnemonic where
  | cls | ret | jp | call | sei | snei | ser | movi | addi | mov | or | and | xor | add | sub | shr
  | subn | shl | sner | seti | drw | skp | sknp | getdt | waitk | setdt | setst | iadd | glyph | bcd
  | stm | ldm
  deriving DecidableEq, Repr

/-- The six formats of R93. -/
inductive Format where
  | Z | A | XK | XY | XYN | XF
  deriving DecidableEq, Repr

/-- An instruction: what one row of R100 stands for, with its operands. -/
inductive Instr where
  | cls
  | ret
  | jp (nnn : Addr12)
  | call (nnn : Addr12)
  | sei (x : Nibble) (kk : Byte)
  | snei (x : Nibble) (kk : Byte)
  | ser (x y : Nibble)
  | movi (x : Nibble) (kk : Byte)
  | addi (x : Nibble) (kk : Byte)
  | mov (x y : Nibble)
  | or (x y : Nibble)
  | and (x y : Nibble)
  | xor (x y : Nibble)
  | add (x y : Nibble)
  | sub (x y : Nibble)
  | shr (x y : Nibble)
  | subn (x y : Nibble)
  | shl (x y : Nibble)
  | sner (x y : Nibble)
  | seti (nnn : Addr12)
  | drw (x y n : Nibble)
  | skp (x : Nibble)
  | sknp (x : Nibble)
  | getdt (x : Nibble)
  | waitk (x : Nibble)
  | setdt (x : Nibble)
  | setst (x : Nibble)
  | iadd (x : Nibble)
  | glyph (x : Nibble)
  | bcd (x : Nibble)
  | stm (x : Nibble)
  | ldm (x : Nibble)
  deriving DecidableEq, Repr

/-- The mnemonic of an instruction's row. -/
def Instr.mnemonic : Instr → Mnemonic
  | .cls => .cls
  | .ret => .ret
  | .jp _ => .jp
  | .call _ => .call
  | .sei _ _ => .sei
  | .snei _ _ => .snei
  | .ser _ _ => .ser
  | .movi _ _ => .movi
  | .addi _ _ => .addi
  | .mov _ _ => .mov
  | .or _ _ => .or
  | .and _ _ => .and
  | .xor _ _ => .xor
  | .add _ _ => .add
  | .sub _ _ => .sub
  | .shr _ _ => .shr
  | .subn _ _ => .subn
  | .shl _ _ => .shl
  | .sner _ _ => .sner
  | .seti _ => .seti
  | .drw _ _ _ => .drw
  | .skp _ => .skp
  | .sknp _ => .sknp
  | .getdt _ => .getdt
  | .waitk _ => .waitk
  | .setdt _ => .setdt
  | .setst _ => .setst
  | .iadd _ => .iadd
  | .glyph _ => .glyph
  | .bcd _ => .bcd
  | .stm _ => .stm
  | .ldm _ => .ldm

/-- The format column of R100. -/
def Mnemonic.format : Mnemonic → Format
  | .cls | .ret => .Z
  | .jp | .call | .seti => .A
  | .sei | .snei | .movi | .addi => .XK
  | .ser | .mov | .or | .and | .xor | .add | .sub | .shr | .subn | .shl | .sner => .XY
  | .drw => .XYN
  | .skp | .sknp | .getdt | .waitk | .setdt | .setst | .iadd | .glyph | .bcd | .stm | .ldm => .XF

/-- An instruction in the source form of R115: a mnemonic and its operands as numbers. -/
structure Source where
  mnemonic : Mnemonic
  operands : List Nat
  deriving DecidableEq, Repr

/-- An operand as it is written (R115): a number, or a label's name. -/
inductive Operand where
  | num (n : Nat)
  | label (name : String)
  deriving DecidableEq, Repr

/-- A line of a source program (R115; log 17). -/
inductive Line where
  /-- `label:` names the address of the next byte emitted. -/
  | label (name : String)
  /-- `DB b0, b1, …`. -/
  | db (bytes : List Nat)
  /-- A mnemonic and its operands. -/
  | code (mnemonic : Mnemonic) (operands : List Operand)
  deriving DecidableEq, Repr

end Sys2Proof
end

