-- ==== Sys2Proof/WellFormed.lean ====
section
/-! DEFINITION. What a well-formed instruction and a well-formed image are. A term of Instr is well formed by its
types (spec/30_encoding.md R95: every value of every field is legal); the checks below are those of the source form
(R115), whose operands are plain numbers, and of a program image (spec/70_reset_and_hazards.md R292, R293). -/

namespace Sys2Proof

/-- A register number names one of `V0..VF` (R95). -/
def isReg (x : Nat) : Bool := decide (x < 16)

/-- `kk` is 8 bits (R92). -/
def isImm8 (k : Nat) : Bool := decide (k < 256)

/-- `nnn` is 12 bits (R92). -/
def isAddr12 (a : Nat) : Bool := decide (a < 4096)

/-- `n` is 4 bits (R92). -/
def isCount (n : Nat) : Bool := decide (n < 16)

/-- `SHR Vx, Vy` and `SHL Vx, Vy` may be written with one operand (R115). -/
def Mnemonic.oneOperandShift : Mnemonic → Bool
  | .shr | .shl => true
  | _ => false

/-- The operands have the number and the widths that the mnemonic's format asks for (R93, R115). -/
def Source.wellFormed (s : Source) : Bool :=
  match s.mnemonic.format, s.operands with
  | .Z, [] => true
  | .A, [nnn] => isAddr12 nnn
  | .XK, [x, kk] => isReg x && isImm8 kk
  | .XY, [x, y] => isReg x && isReg y
  | .XY, [x] => s.mnemonic.oneOperandShift && isReg x
  | .XYN, [x, y, n] => isReg x && isReg y && isCount n
  | .XF, [x] => isReg x
  | _, _ => false

/-- Only the field `nnn` may be written as a label (R115). -/
def Mnemonic.takesLabel (m : Mnemonic) : Bool := m.format == .A

/-- The name a line defines. -/
def Line.defines : Line → Option String
  | .label name => some name
  | .db _ => none
  | .code _ _ => none

/-- Every label of a program is defined at one place. -/
def labelsDistinct (lines : List Line) : Bool := decide (lines.filterMap Line.defines).Nodup

/-- An image fits the space from `0x200` (R292): at most 3584 bytes. -/
def imageFits (image : List Byte) : Bool := decide (image.length ≤ Config.progMax)

/-- The instruction a well-formed source line stands for; none for an ill-formed one. A one-operand shift has
`y = 0` (R115). -/
def Source.toInstr (s : Source) : Option Instr :=
  if s.wellFormed then
    let x : Nibble := BitVec.ofNat 4 (s.operands.getD 0 0)
    let y : Nibble := BitVec.ofNat 4 (s.operands.getD 1 0)
    let n : Nibble := BitVec.ofNat 4 (s.operands.getD 2 0)
    let kk : Byte := BitVec.ofNat 8 (s.operands.getD 1 0)
    let nnn : Addr12 := BitVec.ofNat 12 (s.operands.getD 0 0)
    some <| match s.mnemonic with
      | .cls => .cls
      | .ret => .ret
      | .jp => .jp nnn
      | .call => .call nnn
      | .sei => .sei x kk
      | .snei => .snei x kk
      | .ser => .ser x y
      | .movi => .movi x kk
      | .addi => .addi x kk
      | .mov => .mov x y
      | .or => .or x y
      | .and => .and x y
      | .xor => .xor x y
      | .add => .add x y
      | .sub => .sub x y
      | .shr => .shr x y
      | .subn => .subn x y
      | .shl => .shl x y
      | .sner => .sner x y
      | .seti => .seti nnn
      | .drw => .drw x y n
      | .skp => .skp x
      | .sknp => .sknp x
      | .getdt => .getdt x
      | .waitk => .waitk x
      | .setdt => .setdt x
      | .setst => .setst x
      | .iadd => .iadd x
      | .glyph => .glyph x
      | .bcd => .bcd x
      | .stm => .stm x
      | .ldm => .ldm x
  else none

end Sys2Proof
end

