-- ==== Sys2Proof/Decode.lean ====
section
/-! DEFINITION. Decoding (spec/30_encoding.md R90 to R112) from the opcode map R100, and the encoder written from
the formats R93. Decoding depends on the word alone (R111, spec/40_cycle.md R123). -/

namespace Sys2Proof

/-- Field `x`, bits 11..8 (R92). -/
def fieldX (w : Word) : Nibble := w.extractLsb' 8 4

/-- Field `y`, bits 7..4 (R92). -/
def fieldY (w : Word) : Nibble := w.extractLsb' 4 4

/-- Field `n`, bits 3..0 (R92). -/
def fieldN (w : Word) : Nibble := w.extractLsb' 0 4

/-- Field `kk`, bits 7..0 (R92). -/
def fieldKK (w : Word) : Byte := w.extractLsb' 0 8

/-- Field `nnn`, bits 11..0 (R92). -/
def fieldNNN (w : Word) : Addr12 := w.extractLsb' 0 12

/-- One row of the opcode map R100: a word selects it when `w and mask = match`. -/
structure Row where
  mnemonic : Mnemonic
  mask : Word
  pattern : Word
  build : Word → Instr

/-- A word selects a row (R100). -/
def Row.selects (r : Row) (w : Word) : Bool := w &&& r.mask == r.pattern

/-- Rows 1 to 9 of R100. -/
def rowsLow : List Row :=
  [ ⟨.cls, 0xFFFF, 0x00E0, fun _ => .cls⟩,
    ⟨.ret, 0xFFFF, 0x00EE, fun _ => .ret⟩,
    ⟨.jp, 0xF000, 0x1000, fun w => .jp (fieldNNN w)⟩,
    ⟨.call, 0xF000, 0x2000, fun w => .call (fieldNNN w)⟩,
    ⟨.sei, 0xF000, 0x3000, fun w => .sei (fieldX w) (fieldKK w)⟩,
    ⟨.snei, 0xF000, 0x4000, fun w => .snei (fieldX w) (fieldKK w)⟩,
    ⟨.ser, 0xF00F, 0x5000, fun w => .ser (fieldX w) (fieldY w)⟩,
    ⟨.movi, 0xF000, 0x6000, fun w => .movi (fieldX w) (fieldKK w)⟩,
    ⟨.addi, 0xF000, 0x7000, fun w => .addi (fieldX w) (fieldKK w)⟩ ]

/-- Rows 10 to 21 of R100. -/
def rowsMiddle : List Row :=
  [ ⟨.mov, 0xF00F, 0x8000, fun w => .mov (fieldX w) (fieldY w)⟩,
    ⟨.or, 0xF00F, 0x8001, fun w => .or (fieldX w) (fieldY w)⟩,
    ⟨.and, 0xF00F, 0x8002, fun w => .and (fieldX w) (fieldY w)⟩,
    ⟨.xor, 0xF00F, 0x8003, fun w => .xor (fieldX w) (fieldY w)⟩,
    ⟨.add, 0xF00F, 0x8004, fun w => .add (fieldX w) (fieldY w)⟩,
    ⟨.sub, 0xF00F, 0x8005, fun w => .sub (fieldX w) (fieldY w)⟩,
    ⟨.shr, 0xF00F, 0x8006, fun w => .shr (fieldX w) (fieldY w)⟩,
    ⟨.subn, 0xF00F, 0x8007, fun w => .subn (fieldX w) (fieldY w)⟩,
    ⟨.shl, 0xF00F, 0x800E, fun w => .shl (fieldX w) (fieldY w)⟩,
    ⟨.sner, 0xF00F, 0x9000, fun w => .sner (fieldX w) (fieldY w)⟩,
    ⟨.seti, 0xF000, 0xA000, fun w => .seti (fieldNNN w)⟩,
    ⟨.drw, 0xF000, 0xD000, fun w => .drw (fieldX w) (fieldY w) (fieldN w)⟩ ]

/-- Rows 22 to 32 of R100. -/
def rowsHigh : List Row :=
  [ ⟨.skp, 0xF0FF, 0xE09E, fun w => .skp (fieldX w)⟩,
    ⟨.sknp, 0xF0FF, 0xE0A1, fun w => .sknp (fieldX w)⟩,
    ⟨.getdt, 0xF0FF, 0xF007, fun w => .getdt (fieldX w)⟩,
    ⟨.waitk, 0xF0FF, 0xF00A, fun w => .waitk (fieldX w)⟩,
    ⟨.setdt, 0xF0FF, 0xF015, fun w => .setdt (fieldX w)⟩,
    ⟨.setst, 0xF0FF, 0xF018, fun w => .setst (fieldX w)⟩,
    ⟨.iadd, 0xF0FF, 0xF01E, fun w => .iadd (fieldX w)⟩,
    ⟨.glyph, 0xF0FF, 0xF029, fun w => .glyph (fieldX w)⟩,
    ⟨.bcd, 0xF0FF, 0xF033, fun w => .bcd (fieldX w)⟩,
    ⟨.stm, 0xF0FF, 0xF055, fun w => .stm (fieldX w)⟩,
    ⟨.ldm, 0xF0FF, 0xF065, fun w => .ldm (fieldX w)⟩ ]

/-- The complete map R100, in its order. -/
def opcodeMap : List Row := rowsLow ++ rowsMiddle ++ rowsHigh

/-- Dispatch (spec/40_cycle.md R124): the instruction of the row the word selects; none is a decode miss (R108). -/
def decode (w : Word) : Option Instr :=
  (opcodeMap.find? fun r => r.selects w).map fun r => r.build w

/-- What the decoder answers on a byte sequence. -/
inductive Decoded where
  /-- An instruction and the bytes after it. -/
  | instr (i : Instr) (rest : List Byte)
  /-- A decode miss (R108): the word, and the bytes after it. -/
  | miss (w : Word) (rest : List Byte)
  /-- Fewer than the two bytes that every instruction has (R90). -/
  | truncated
  deriving DecidableEq, Repr

/-- Two bytes as a word, high byte first in memory (R91). -/
def wordOf (hi lo : Byte) : Word := hi ++ lo

/-- The byte at the lower address (R91). -/
def highByte (w : Word) : Byte := w.extractLsb' 8 8

/-- The byte at the higher address (R91). -/
def lowByte (w : Word) : Byte := w.extractLsb' 0 8

/-- Decoding from bytes, total: two bytes, then the map (R90, R91, R100). -/
def decodeBytes : List Byte → Decoded
  | hi :: lo :: rest =>
    match decode (wordOf hi lo) with
    | some i => .instr i rest
    | none => .miss (wordOf hi lo) rest
  | _ => .truncated

/-- Format A (R93): `op nnn`. -/
def encA (op : Nibble) (nnn : Addr12) : Word := op ++ nnn

/-- Format XK (R93): `op x kk`. -/
def encXK (op x : Nibble) (kk : Byte) : Word := op ++ (x ++ kk)

/-- Formats XY and XYN (R93): `op x y` and a low nibble, which is a function code or the count. -/
def encXY (op x y low : Nibble) : Word := op ++ (x ++ (y ++ low))

/-- Format XF (R93): `op x` and an 8-bit function. -/
def encXF (op x : Nibble) (fn : Byte) : Word := op ++ (x ++ fn)

/-- The word of an instruction (R93, R100). -/
def encode : Instr → Word
  | .cls => 0x00E0
  | .ret => 0x00EE
  | .jp nnn => encA 0x1 nnn
  | .call nnn => encA 0x2 nnn
  | .sei x kk => encXK 0x3 x kk
  | .snei x kk => encXK 0x4 x kk
  | .ser x y => encXY 0x5 x y 0x0
  | .movi x kk => encXK 0x6 x kk
  | .addi x kk => encXK 0x7 x kk
  | .mov x y => encXY 0x8 x y 0x0
  | .or x y => encXY 0x8 x y 0x1
  | .and x y => encXY 0x8 x y 0x2
  | .xor x y => encXY 0x8 x y 0x3
  | .add x y => encXY 0x8 x y 0x4
  | .sub x y => encXY 0x8 x y 0x5
  | .shr x y => encXY 0x8 x y 0x6
  | .subn x y => encXY 0x8 x y 0x7
  | .shl x y => encXY 0x8 x y 0xE
  | .sner x y => encXY 0x9 x y 0x0
  | .seti nnn => encA 0xA nnn
  | .drw x y n => encXY 0xD x y n
  | .skp x => encXF 0xE x 0x9E
  | .sknp x => encXF 0xE x 0xA1
  | .getdt x => encXF 0xF x 0x07
  | .waitk x => encXF 0xF x 0x0A
  | .setdt x => encXF 0xF x 0x15
  | .setst x => encXF 0xF x 0x18
  | .iadd x => encXF 0xF x 0x1E
  | .glyph x => encXF 0xF x 0x29
  | .bcd x => encXF 0xF x 0x33
  | .stm x => encXF 0xF x 0x55
  | .ldm x => encXF 0xF x 0x65

/-- An instruction as its two bytes, high byte first (R91, R115). -/
def encodeBytes (i : Instr) : List Byte := [highByte (encode i), lowByte (encode i)]

/-- The bytes of a list of instructions, in order (R115). -/
def assemble (is : List Instr) : List Byte := is.flatMap encodeBytes

/-- How many bytes a line emits (R115). -/
def Line.size : Line → Nat
  | .label _ => 0
  | .db bytes => bytes.length
  | .code _ _ => 2

/-- The labels of a program with their addresses, the first byte emitted being at `a` (R115). -/
def labelTable : Nat → List Line → List (String × Nat)
  | _, [] => []
  | a, .label name :: lines => (name, a) :: labelTable a lines
  | a, .db bytes :: lines => labelTable (a + bytes.length) lines
  | a, .code _ _ :: lines => labelTable (a + 2) lines

/-- The number an operand stands for; none for a label that is not defined or that stands where none may. -/
def Operand.value (labels : List (String × Nat)) (mayBeLabel : Bool) : Operand → Option Nat
  | .num n => some n
  | .label name => if mayBeLabel then labels.lookup name else none

/-- The bytes of a line; none for an ill-formed one (R115). -/
def Line.emit (labels : List (String × Nat)) : Line → Option (List Byte)
  | .label _ => some []
  | .db bytes => if bytes.all isImm8 then some (bytes.map fun b => BitVec.ofNat 8 b) else none
  | .code m operands =>
    match operands.mapM fun (o : Operand) => o.value labels m.takesLabel with
    | none => none
    | some ns => (Source.mk m ns).toInstr.map encodeBytes

/-- The image of a program (R115): the first byte stands at `0x200`. -/
def assembleLines (lines : List Line) : Option (List Byte) :=
  if labelsDistinct lines then
    (lines.mapM fun (l : Line) => l.emit (labelTable Config.progBase lines)).map List.flatten
  else none

/-- A table word as bytes: the bits above `nbits` are zero, and the one instruction word is stored high byte first
(R91). -/
def tableWord (nbits w : Nat) : Word := BitVec.ofNat 16 (w % 2 ^ nbits)

/-- What the decoder reads from an instruction whose bits are `w`, numbered as spec/opcode_table.json numbers them. -/
def decodeTableWord (nbits w : Nat) : Option Instr :=
  match decodeBytes [highByte (tableWord nbits w), lowByte (tableWord nbits w)] with
  | .instr i _ => some i
  | .miss _ _ => none
  | .truncated => none

end Sys2Proof
end

