-- ==== Sys2Proof/Machine/Defaults.lean ====
section
/-! DEFINITION. The defaults of the open parameters (spec/00_scope.md R8) and what a memory cell holds after reset
(spec/10_state.md R36, R41; spec/20_memory.md R67). -/

namespace Sys2Proof.Machine

open Sys2Proof.Config

/-- The font of R41, glyphs 0 to 7. PRESUMED by the spec itself: the bytes are from general knowledge (D19). -/
def fontLow : Vector Byte 40 :=
  #v[0xF0, 0x90, 0x90, 0x90, 0xF0,  0x20, 0x60, 0x20, 0x20, 0x70,
     0xF0, 0x10, 0xF0, 0x80, 0xF0,  0xF0, 0x10, 0xF0, 0x10, 0xF0,
     0x90, 0x90, 0xF0, 0x10, 0x10,  0xF0, 0x80, 0xF0, 0x10, 0xF0,
     0xF0, 0x80, 0xF0, 0x90, 0xF0,  0xF0, 0x10, 0x20, 0x40, 0x40]

/-- The font of R41, glyphs 8 to F. -/
def fontHigh : Vector Byte 40 :=
  #v[0xF0, 0x90, 0xF0, 0x90, 0xF0,  0xF0, 0x90, 0xF0, 0x10, 0xF0,
     0xF0, 0x90, 0xF0, 0x90, 0x90,  0xE0, 0x90, 0xE0, 0x90, 0xE0,
     0xF0, 0x80, 0x80, 0x80, 0xF0,  0xE0, 0x90, 0x90, 0x90, 0xE0,
     0xF0, 0x80, 0xF0, 0x80, 0xF0,  0xF0, 0x80, 0xF0, 0x80, 0x80]

/-- `FONT`, the default (R41). -/
def defaultFont : Vector Byte 80 := fontLow ++ fontHigh

/-- The defaults of R8. -/
def defaultParams : Params where
  font := defaultFont
  glyphBase := .zero
  subEqFlag := false
  shiftSrc := .vx
  ldstInc := false
  keyOor := .notPressed

/-- The number that `GLYPH_BASE` stands for (R8). -/
def glyphBaseValue : GlyphBase → Nat
  | .zero => 0x000
  | .font => 0x050

/-- What an address that memory does not list reads as: the contents after `RESET` with no image, the font at
`0x050..0x09F` and zeros elsewhere (R36, R67). -/
def unlistedByte (font : Vector Byte 80) (a : Nat) : Byte :=
  if h : fontBase ≤ a ∧ a < fontBase + fontSize then
    font[a - fontBase]'(by have := h.1; have := h.2; simp only [fontBase, fontSize] at *; omega)
  else 0#8

end Sys2Proof.Machine
end

