-- ==== Sys2Proof/Machine/State.lean ====
section
/-! DEFINITION. The machine's state (spec/10_state.md R20 to R36), its reset value, and the events and outcomes of
the interface (spec/00_scope.md R5, spec/40_cycle.md R128). -/

namespace Sys2Proof.Machine

open Sys2Proof.Config

/-- The causes that `FCAUSE` can hold (spec/60_exceptions.md R250); codes 5..7 are never produced, so the cause has
four values and none (U19; log 8). -/
inductive FaultCause where
  /-- Code 0: no fault recorded. -/
  | noFault
  /-- Code 1: a push when `SP = 16`. -/
  | stackOverflow
  /-- Code 2: a pop when `SP = 0`. -/
  | stackUnderflow
  /-- Code 3: `RESET` with an image of more than 3584 bytes. -/
  | loadSize
  /-- Code 4: a byte access at an address of 4096 or more. -/
  | addrRange
  deriving DecidableEq, Repr

/-- The outcome of one `STEP` (R128), an output of the CORE. -/
inductive StepReport where
  | executed
  | miss (w : Word)
  | waiting
  | keyTaken (k : Nibble)
  | paused
  | halted
  | fault (cause : FaultCause) (info : BitVec 17)
  deriving DecidableEq, Repr

/-- The six events of R5. `SETKEY`'s code is a 4-bit port (D1). -/
inductive Event where
  | reset (image : List Byte)
  | step
  | tick
  | setKey (code : Nibble) (pressed : Bool)
  | pause
  | resume
  deriving DecidableEq, Repr

/-- The state: every item of R36, and after them the model's own four fields (log 1, 2, 3). -/
structure State where
  /-- `V[0..15]` (R20). -/
  v : Vector Byte 16
  /-- `I` (R22). -/
  i : Word
  /-- `PC` (R23). -/
  pc : Word
  /-- `STACK[0..15]` (R24). -/
  stack : Vector Word 16
  /-- `SP`, 0..16 (R24). -/
  sp : Fin 17
  /-- `DT` (R25). -/
  dt : Byte
  /-- `ST` (R25). -/
  st : Byte
  /-- `BLOCKED` (R26). -/
  blocked : Bool
  /-- `KX` (R27). -/
  kx : Nibble
  /-- `PAUSED` (R28). -/
  paused : Bool
  /-- `FCAUSE` (R29). -/
  fcause : FaultCause
  /-- `FINFO` (R29). -/
  finfo : BitVec 17
  /-- `MEM[0..4095]` (R32): the cells that differ from `unlistedByte`, by rising address. -/
  mem : List Host.Cell
  /-- `FB[0..2047]` (R33): row `y`, bit `x` is `FB[x + y*64]`. -/
  fb : Vector (BitVec 64) 32
  /-- `KEYS[0..15]` (R34): bit `k` is `KEYS[k]`. -/
  keys : BitVec 16
  /-- The model's own: the open parameters (spec/00_scope.md R8; log 1). -/
  cfg : Params
  /-- The model's own: the host's coming events, first of them first; none left means `STEP` (R5; log 2). -/
  events : List Event
  /-- The model's own: the outcome of the last `STEP` (R128; log 3). -/
  report : Option StepReport
  /-- The model's own: a decode miss has occurred in this run (R256; log 3). -/
  missed : Bool
  deriving DecidableEq, Repr

/-- The host interface's fault outcome. NO step ends in it: the four fatal conditions of the spec are taken, as a
next state with the fault latch set (R252; log 4), so there is no constructor. Safe: nothing is cut off. -/
inductive Fault : Type where
  deriving DecidableEq, Repr

/-- The host interface's refusal outcome. -/
inductive Refusal where
  /-- Raised by an arm of exec whose instruction has no meaning yet; no arm raises it now. Safe: the run stops. -/
  | notModelled (mnemonic : String)
  deriving DecidableEq, Repr

/-- The machine right after power-on and `RESET` with an empty image (R36, R290, R291; log 6, 7): `PC = 0x200`,
memory with nothing listed, everything else 0, the parameters at their defaults. -/
def State.reset : State where
  v := Vector.replicate 16 0
  i := 0
  pc := 0x200
  stack := Vector.replicate 16 0
  sp := 0
  dt := 0
  st := 0
  blocked := false
  kx := 0
  paused := false
  fcause := .noFault
  finfo := 0
  mem := []
  fb := Vector.replicate 32 0
  keys := 0
  cfg := defaultParams
  events := []
  report := none
  missed := false

end Sys2Proof.Machine
end

