-- ==== Sys2Proof/Machine/Ops.lean ====
section
/-! DEFINITION. The named operations over the state: fault entry, memory, fetch, the call stack, the framebuffer,
the key latch. -/

namespace Sys2Proof.Machine

open Sys2Proof.Config

/-! ### Fault entry -/

/-- Fault entry, `raise C(info)` (spec/60_exceptions.md R252): the latch is set and the rest of the state stays as
it is. The instruction ends; nothing executes afterwards (R253). -/
def State.raise (s : State) (c : FaultCause) (info : Nat) : State :=
  { s with fcause := c, finfo := BitVec.ofNat 17 info }

/-- The 3-bit code that `FCAUSE` holds (R250). -/
def FaultCause.code : FaultCause → BitVec 3
  | .noFault => 0
  | .stackOverflow => 1
  | .stackUnderflow => 2
  | .loadSize => 3
  | .addrRange => 4

/-- The end of an instruction: it ran to its end (`ok`), or a `raise` ended it and the state is the one with the
latch set (`error`). Both are next states (log 4). -/
def settle : Except State State → Host.Outcome State Fault Refusal
  | .ok t => .next t
  | .error t => .next t

/-! ### Memory -/

/-- The byte that a listing of memory gives for an address. -/
def Memory.get (font : Vector Byte 80) : List Host.Cell → Nat → Byte
  | [], a => unlistedByte font a
  | (b, x) :: m, a => if a = b then x else Memory.get font m a

/-- Store a byte, keeping the canonical form: a cell that holds what an unlisted address reads as is not listed. -/
def Memory.set (font : Vector Byte 80) : List Host.Cell → Nat → Byte → List Host.Cell
  | [], a, x => if x = unlistedByte font a then [] else [(a, x)]
  | (b, y) :: m, a, x =>
    if a < b then (if x = unlistedByte font a then (b, y) :: m else (a, x) :: (b, y) :: m)
    else if a = b then (if x = unlistedByte font a then m else (a, x) :: m)
    else (b, y) :: Memory.set font m a x

/-- The canonical form of a listing whose addresses are at least `lo`: rising, below 4096, no cell that holds what
an unlisted address reads as. -/
def Memory.wfFrom (font : Vector Byte 80) : Nat → List Host.Cell → Bool
  | _, [] => true
  | lo, (b, x) :: m =>
    decide (lo ≤ b) && decide (b < memSize) && decide (x ≠ unlistedByte font b) &&
      Memory.wfFrom font (b + 1) m

/-- The canonical form of memory. -/
def Memory.wf (font : Vector Byte 80) (m : List Host.Cell) : Bool := Memory.wfFrom font 0 m

/-- `MEM[a]`, an observation (spec/00_scope.md R6). -/
def State.byteAt (s : State) (a : Nat) : Byte := Memory.get s.cfg.font s.mem a

/-- `MEM[a] <- x`. -/
def State.putByte (s : State) (a : Nat) (x : Byte) : State :=
  { s with mem := Memory.set s.cfg.font s.mem a x }

/-- `MemRead(a, 1)` (spec/20_memory.md R62): the byte, or `raise AddrRange(a)`; the address is not reduced first. -/
def State.memRead (s : State) (a : Nat) : Except State Byte :=
  if a < memSize then .ok (s.byteAt a) else .error (s.raise .addrRange a)

/-- `MemWrite(a, 1, x)` (R62). -/
def State.memWrite (s : State) (a : Nat) (x : Byte) : Except State State :=
  if a < memSize then .ok (s.putByte a x) else .error (s.raise .addrRange a)

/-- Byte stores at ascending addresses from `a` (R61, R65); the first out-of-range one ends them, and the earlier
ones stand (R76). -/
def storeBytes : List Byte → Nat → State → Except State State
  | [], _, s => .ok s
  | x :: xs, a, s =>
    match s.memWrite a x with
    | .error t => .error t
    | .ok t => storeBytes xs (a + 1) t

/-! ### Fetch and advance -/

/-- Fetch (spec/20_memory.md R64, spec/40_cycle.md R121): the byte at `pc`, then the byte at `pc + 1` (a natural
number, no wrap), high byte first. -/
def State.fetch (s : State) : Except State Word :=
  match s.memRead s.pc.toNat with
  | .error t => .error t
  | .ok hi =>
    match s.memRead (s.pc.toNat + 1) with
    | .error t => .error t
    | .ok lo => .ok (wordOf hi lo)

/-- `pc <- (pc + 2) mod 65536`: the advance of every step (spec/40_cycle.md R122). -/
def State.advance (s : State) : State := { s with pc := s.pc + 2#16 }

/-- The address of the instruction being executed: `pc - 2` at the `raise` (spec/60_exceptions.md R250; log 10). -/
def State.instrAddr (s : State) : Nat := (s.pc - 2#16).toNat

/-! ### Call stack -/

/-- `Push(v)` (spec/10_state.md R30): the check precedes the write. -/
def State.push (s : State) (x : Word) : Except State State :=
  if h : s.sp.val < 16 then
    .ok { s with stack := s.stack.set s.sp.val x h, sp := ⟨s.sp.val + 1, by omega⟩ }
  else .error (s.raise .stackOverflow s.instrAddr)

/-- `Pop()` (R31): the value, and the state with one live entry less; the cell keeps its contents. -/
def State.pop (s : State) : Except State (Word × State) :=
  if h : 0 < s.sp.val then
    .ok (s.stack[s.sp.val - 1]'(by omega), { s with sp := ⟨s.sp.val - 1, by omega⟩ })
  else .error (s.raise .stackUnderflow s.instrAddr)

/-! ### Framebuffer -/

/-- The column of a cell: `x mod 64` (spec/44_display.md R210). -/
def pixCol (x : Nat) : Nat := x % fbW

/-- The row of a cell: `y mod 32` (R210). -/
def pixRow (y : Nat) : Nat := y % fbH

/-- A row number is one of the 32 rows. -/
theorem pixRow_lt (y : Nat) : pixRow y < 32 := Nat.mod_lt _ (by decide)

/-- `getPixel(x, y)`, `Pix(x, y)` (R210, R212). -/
def State.pix (s : State) (x y : Nat) : Bool :=
  (s.fb[pixRow y]'(pixRow_lt y)).getLsbD (pixCol x)

/-- A bit of a word set to a value. -/
def setBit {n : Nat} (w : BitVec n) (k : Nat) (b : Bool) : BitVec n :=
  if b then w ||| BitVec.twoPow n k else w &&& ~~~ BitVec.twoPow n k

/-- `setPixel(x, y, b)` (R212). -/
def State.setPix (s : State) (x y : Nat) (b : Bool) : State :=
  { s with
    fb := s.fb.set (pixRow y) (setBit (s.fb[pixRow y]'(pixRow_lt y)) (pixCol x) b) (pixRow_lt y) }

/-- `clear()` (R212). -/
def State.clearFb (s : State) : State := { s with fb := Vector.replicate 32 0 }

/-! ### Key latch -/

/-- `isPressed(k)`, `KEYS[k]` (spec/60_exceptions.md R267). -/
def State.key (s : State) (k : Nibble) : Bool := s.keys.getLsbD k.toNat

/-- `AnyPressed()` (spec/40_cycle.md R127): the smallest held code. -/
def State.anyPressed (s : State) : Option Nibble :=
  ((List.range 16).find? fun k => s.keys.getLsbD k).map fun k => BitVec.ofNat 4 k

end Sys2Proof.Machine
end

