-- ==== Sys2Proof/Machine/Operands.lean ====
section
/-! DEFINITION. Operand forms: registers, the skip, the effective address, and the values that the open parameters
choose. -/

namespace Sys2Proof.Machine

open Sys2Proof.Config

/-- `V[x]` (spec/10_state.md R20). -/
def State.getV (s : State) (x : Nibble) : Byte := s.v[x.toNat]'(x.isLt)

/-- `V[x] <- b` (R20): no register is hardwired. -/
def State.setV (s : State) (x : Nibble) (b : Byte) : State :=
  { s with v := s.v.set x.toNat b x.isLt }

/-- The number of the register `VF` (R21). -/
def vf : Nibble := 15#4

/-- `pc <- zext_16(nnn)` (spec/30_encoding.md R94). -/
def State.jump (s : State) (nnn : Addr12) : State := { s with pc := nnn.setWidth 16 }

/-- A skip (spec/41_control.md R147): 2 more on the advanced `pc`, when the condition holds. -/
def State.skipIf (s : State) (c : Bool) : State := if c then { s with pc := s.pc + 2#16 } else s

/-- The one addressing mode (spec/43_index_memory.md R196): `I` plus an offset, a natural number. -/
def State.effAddr (s : State) (offset : Nat) : Nat := s.i.toNat + offset

/-- The value that `8xy6` and `8xyE` shift (spec/42_alu.md R170, R172): by `SHIFT_SRC`. -/
def State.shiftOperand (s : State) (x y : Nibble) : Byte :=
  match s.cfg.shiftSrc with
  | .vx => s.getV x
  | .vy => s.getV y

/-- The address that `Fx29` puts in `I` (spec/43_index_memory.md R192). -/
def State.glyphAddr (s : State) (a : Byte) : Word :=
  BitVec.ofNat 16 (glyphBaseValue s.cfg.glyphBase + 5 * a.toNat)

/-- What `LDST_INC` adds to `I` after a completed transfer of `V0..Vx` (R194, R195; log 11). -/
def State.stepIndex (s : State) (x : Nibble) : State :=
  if s.cfg.ldstInc then { s with i := s.i + BitVec.ofNat 16 (x.toNat + 1) } else s

/-- `KeyHeld(a)` (spec/45_keys_timers.md R237): a code of 16 or more by `KEY_OOR`. -/
def State.keyHeld (s : State) (a : Byte) : Bool :=
  if a.toNat ≤ 15 then s.key (a.setWidth 4)
  else
    match s.cfg.keyOor with
    | .notPressed => false
    | .low4 => s.key (a.setWidth 4)

/-- The registers `V0..Vx` in order. -/
def State.lowRegs (s : State) (x : Nibble) : List Byte :=
  (List.range (x.toNat + 1)).map fun k => s.getV (BitVec.ofNat 4 k)

/-- The three decimal digits of a byte, hundreds first (R193). -/
def decimalDigits (a : Byte) : List Byte :=
  [BitVec.ofNat 8 (a.toNat / 100), BitVec.ofNat 8 (a.toNat / 10 % 10), BitVec.ofNat 8 (a.toNat % 10)]

/-- Byte loads from `base + k`, `base + k + 1`, … into `V[k]`, `V[k+1]`, …, `count` of them (R195); the first
out-of-range one ends them, and the earlier ones stand (spec/20_memory.md R76). -/
def loadRegs (base : Nat) : (count k : Nat) → State → Except State State
  | 0, _, s => .ok s
  | count + 1, k, s =>
    match s.memRead (base + k) with
    | .error t => .error t
    | .ok b => loadRegs base count (k + 1) (s.setV (BitVec.ofNat 4 k) b)

end Sys2Proof.Machine
end

