-- ==== Sys2Proof/Machine/Flags.lean ====
section
/-! DEFINITION. The results and the `VF` values of the flag-writing instructions (spec/42_alu.md R160 to R174) and
the order of the two writes. -/

namespace Sys2Proof.Machine

/-- A condition as the 8-bit flag value 0 or 1 (spec/10_state.md R21). -/
def flagByte (c : Bool) : Byte := if c then 1#8 else 0#8

/-- The carry out of an 8-bit addition (R168). -/
def addFlag (a b : Byte) : Byte := flagByte (decide (255 < a.toNat + b.toNat))

/-- The not-borrow flag of `a - b` (R169, R171): 1 when `a > b`, `SUB_EQ_FLAG` when equal, else 0. -/
def State.subFlag (s : State) (a b : Byte) : Byte :=
  flagByte (if b.toNat < a.toNat then true else if a = b then s.cfg.subEqFlag else false)

/-- The bit that a right shift shifts out (R170). -/
def shrFlag (a : Byte) : Byte := flagByte (a.getLsbD 0)

/-- The bit that a left shift shifts out (R172). -/
def shlFlag (a : Byte) : Byte := flagByte (a.getLsbD 7)

/-- `(a + b) mod 256` (R174). -/
def addResult (a b : Byte) : Byte := BitVec.ofNat 8 ((a.toNat + b.toNat) % 256)

/-- `(a - b) mod 256` (R174). -/
def subResult (a b : Byte) : Byte := BitVec.ofNat 8 ((a.toNat + 256 - b.toNat) % 256)

/-- `a div 2` (R170). -/
def shrResult (a : Byte) : Byte := BitVec.ofNat 8 (a.toNat / 2)

/-- `(a * 2) mod 256` (R172). -/
def shlResult (a : Byte) : Byte := BitVec.ofNat 8 (a.toNat * 2 % 256)

/-- Flag first, result second (R161): with `x = 15` the result stands and the flag is lost. -/
def State.setFlagThen (s : State) (x : Nibble) (flag result : Byte) : State :=
  (s.setV vf flag).setV x result

end Sys2Proof.Machine
end

