-- ==== Sys2Proof/Machine/Alu.lean ====
section
/-! DEFINITION. Register load and ALU (spec/42_alu.md). All sources are read before any write (R160). -/

namespace Sys2Proof.Machine

/-- `MOVI Vx, kk` (R162). -/
def execMovi (x : Nibble) (kk : Byte) (s : State) : Host.Outcome State Fault Refusal :=
  .next (s.setV x kk)

/-- `ADDI Vx, kk` (R163): no flag. -/
def execAddi (x : Nibble) (kk : Byte) (s : State) : Host.Outcome State Fault Refusal :=
  .next (s.setV x (addResult (s.getV x) kk))

/-- `MOV Vx, Vy` (R164). -/
def execMov (x y : Nibble) (s : State) : Host.Outcome State Fault Refusal :=
  .next (s.setV x (s.getV y))

/-- `OR Vx, Vy` (R165): no flag. -/
def execOr (x y : Nibble) (s : State) : Host.Outcome State Fault Refusal :=
  .next (s.setV x (s.getV x ||| s.getV y))

/-- `AND Vx, Vy` (R166): no flag. -/
def execAnd (x y : Nibble) (s : State) : Host.Outcome State Fault Refusal :=
  .next (s.setV x (s.getV x &&& s.getV y))

/-- `XOR Vx, Vy` (R167): no flag. -/
def execXor (x y : Nibble) (s : State) : Host.Outcome State Fault Refusal :=
  .next (s.setV x (s.getV x ^^^ s.getV y))

/-- `ADD Vx, Vy` (R168). -/
def execAdd (x y : Nibble) (s : State) : Host.Outcome State Fault Refusal :=
  .next (s.setFlagThen x (addFlag (s.getV x) (s.getV y)) (addResult (s.getV x) (s.getV y)))

/-- `SUB Vx, Vy` (R169). -/
def execSub (x y : Nibble) (s : State) : Host.Outcome State Fault Refusal :=
  .next (s.setFlagThen x (s.subFlag (s.getV x) (s.getV y)) (subResult (s.getV x) (s.getV y)))

/-- `SHR Vx, Vy` (R170). -/
def execShr (x y : Nibble) (s : State) : Host.Outcome State Fault Refusal :=
  .next (s.setFlagThen x (shrFlag (s.shiftOperand x y)) (shrResult (s.shiftOperand x y)))

/-- `SUBN Vx, Vy` (R171). -/
def execSubn (x y : Nibble) (s : State) : Host.Outcome State Fault Refusal :=
  .next (s.setFlagThen x (s.subFlag (s.getV y) (s.getV x)) (subResult (s.getV y) (s.getV x)))

/-- `SHL Vx, Vy` (R172). -/
def execShl (x y : Nibble) (s : State) : Host.Outcome State Fault Refusal :=
  .next (s.setFlagThen x (shlFlag (s.shiftOperand x y)) (shlResult (s.shiftOperand x y)))

end Sys2Proof.Machine
end

