-- ==== Sys2Proof/Machine/Control.lean ====
section
/-! DEFINITION. Control transfer (spec/41_control.md). Every meaning is applied to the state with `pc` already
advanced (spec/00_scope.md R11). -/

namespace Sys2Proof.Machine

/-- `RET` (R140). -/
def execRet (s : State) : Host.Outcome State Fault Refusal :=
  match s.pop with
  | .error t => .next t
  | .ok (a, t) => .next { t with pc := a }

/-- `JP nnn` (R141). -/
def execJp (nnn : Addr12) (s : State) : Host.Outcome State Fault Refusal := .next (s.jump nnn)

/-- `CALL nnn` (R142). -/
def execCall (nnn : Addr12) (s : State) : Host.Outcome State Fault Refusal :=
  match s.push s.pc with
  | .error t => .next t
  | .ok t => .next (t.jump nnn)

/-- `SEI Vx, kk` (R143). -/
def execSei (x : Nibble) (kk : Byte) (s : State) : Host.Outcome State Fault Refusal :=
  .next (s.skipIf (decide (s.getV x = kk)))

/-- `SNEI Vx, kk` (R144). -/
def execSnei (x : Nibble) (kk : Byte) (s : State) : Host.Outcome State Fault Refusal :=
  .next (s.skipIf (decide (s.getV x ≠ kk)))

/-- `SER Vx, Vy` (R145). -/
def execSer (x y : Nibble) (s : State) : Host.Outcome State Fault Refusal :=
  .next (s.skipIf (decide (s.getV x = s.getV y)))

/-- `SNER Vx, Vy` (R146). -/
def execSner (x y : Nibble) (s : State) : Host.Outcome State Fault Refusal :=
  .next (s.skipIf (decide (s.getV x ≠ s.getV y)))

end Sys2Proof.Machine
end

