-- ==== Sys2Proof/Machine/Display.lean ====
section
/-! DEFINITION. The display instructions and the compositor's loops (spec/44_display.md). -/

namespace Sys2Proof.Machine

/-- A 1 bit of the sprite at a cell (R214): the collision flag if the cell was 1, and the cell toggled. -/
def State.drawBit (s : State) (px py : Nat) : State :=
  (if s.pix px py then s.setV vf 1#8 else s).setPix px py (!s.pix px py)

/-- The sprite row `row` at row `py`, columns from `ox` (R214): bit 7 is the leftmost; a 0 bit does nothing. -/
def State.drawRow (s : State) (ox py : Nat) (row : Byte) : State :=
  (List.range 8).foldl (fun t c => if row.getLsbD (7 - c) then t.drawBit (ox + c) py else t) s

/-- The sprite rows `r`, `r + 1`, …, `count` of them, read from `base + r` on (R214); the first out-of-range read
ends them, and the rows drawn stand (spec/20_memory.md R76). -/
def drawRows (ox oy base : Nat) : (count r : Nat) → State → Except State State
  | 0, _, s => .ok s
  | count + 1, r, s =>
    match s.memRead (base + r) with
    | .error t => .error t
    | .ok row => drawRows ox oy base count (r + 1) (s.drawRow ox (oy + r) row)

/-- `CLS` (R211). -/
def execCls (s : State) : Host.Outcome State Fault Refusal := .next s.clearFb

/-- `DRW Vx, Vy, n` (R214): the origin is read before `VF` is cleared. -/
def execDrw (x y n : Nibble) (s : State) : Host.Outcome State Fault Refusal :=
  settle (drawRows (s.getV x).toNat (s.getV y).toNat (s.effAddr 0) n.toNat 0 (s.setV vf 0#8))

end Sys2Proof.Machine
end

