-- ==== Sys2Proof/Machine/Index.lean ====
section
/-! DEFINITION. Index register and memory instructions (spec/43_index_memory.md). None writes `VF` as a flag. -/

namespace Sys2Proof.Machine

/-- `SETI nnn` (R190). -/
def execSeti (nnn : Addr12) (s : State) : Host.Outcome State Fault Refusal :=
  .next { s with i := nnn.setWidth 16 }

/-- `IADD Vx` (R191): modulo 65536, no mask, no flag. -/
def execIadd (x : Nibble) (s : State) : Host.Outcome State Fault Refusal :=
  .next { s with i := s.i + (s.getV x).setWidth 16 }

/-- `GLYPH Vx` (R192): all 8 bits of `Vx`. -/
def execGlyph (x : Nibble) (s : State) : Host.Outcome State Fault Refusal :=
  .next { s with i := s.glyphAddr (s.getV x) }

/-- `BCD Vx` (R193). -/
def execBcd (x : Nibble) (s : State) : Host.Outcome State Fault Refusal :=
  settle (storeBytes (decimalDigits (s.getV x)) (s.effAddr 0) s)

/-- `STM Vx` (R194). -/
def execStm (x : Nibble) (s : State) : Host.Outcome State Fault Refusal :=
  settle ((storeBytes (s.lowRegs x) (s.effAddr 0) s).map fun t => t.stepIndex x)

/-- `LDM Vx` (R195). -/
def execLdm (x : Nibble) (s : State) : Host.Outcome State Fault Refusal :=
  settle ((loadRegs (s.effAddr 0) (x.toNat + 1) 0 s).map fun t => t.stepIndex x)

end Sys2Proof.Machine
end

