-- ==== Sys2Proof/Machine/KeysTimers.lean ====
section
/-! DEFINITION. Key and timer instructions (spec/45_keys_timers.md). None touches memory or can fault. -/

namespace Sys2Proof.Machine

/-- `SKP Vx` (R230). -/
def execSkp (x : Nibble) (s : State) : Host.Outcome State Fault Refusal :=
  .next (s.skipIf (s.keyHeld (s.getV x)))

/-- `SKNP Vx` (R231). -/
def execSknp (x : Nibble) (s : State) : Host.Outcome State Fault Refusal :=
  .next (s.skipIf (!s.keyHeld (s.getV x)))

/-- `GETDT Vx` (R232). -/
def execGetdt (x : Nibble) (s : State) : Host.Outcome State Fault Refusal := .next (s.setV x s.dt)

/-- `WAITK Vx` (R236): it sets the latches and reads no key; later steps poll (spec/40_cycle.md R126). -/
def execWaitk (x : Nibble) (s : State) : Host.Outcome State Fault Refusal :=
  .next { s with kx := x, blocked := true }

/-- `SETDT Vx` (R233). -/
def execSetdt (x : Nibble) (s : State) : Host.Outcome State Fault Refusal :=
  .next { s with dt := s.getV x }

/-- `SETST Vx` (R234). -/
def execSetst (x : Nibble) (s : State) : Host.Outcome State Fault Refusal :=
  .next { s with st := s.getV x }

end Sys2Proof.Machine
end

