-- ==== Sys2Proof/Machine/Events.lean ====
section
/-! DEFINITION. The host's events other than STEP (spec/60_exceptions.md R260, R266, R270;
spec/70_reset_and_hazards.md R290 to R293), the observations of spec/00_scope.md R6, and what a step that executes no
instruction does (spec/40_cycle.md R124, R126). -/

namespace Sys2Proof.Machine

open Sys2Proof.Config

/-- `if t > 0 then t <- t - 1` (R260). -/
def countDown (t : Byte) : Byte := if 0 < t.toNat then t - 1#8 else t

/-- `TICK` (R260): both timers, unless faulted (R253) or paused (R270). -/
def State.tick (s : State) : State :=
  if s.fcause = .noFault ∧ s.paused = false then { s with dt := countDown s.dt, st := countDown s.st }
  else s

/-- `SETKEY(code, pressed)` (R266): in every state. -/
def State.setKey (s : State) (code : Nibble) (pressed : Bool) : State :=
  { s with keys := setBit s.keys code.toNat pressed }

/-- `PAUSE` (R270): nothing when faulted. -/
def State.pause (s : State) : State :=
  if s.fcause = .noFault then { s with paused := true } else s

/-- `RESUME` (R270): nothing when faulted. -/
def State.resume (s : State) : State :=
  if s.fcause = .noFault then { s with paused := false } else s

/-- The listing of an image placed from `a` on: the cells that differ from what an unlisted address reads as. -/
def imageCells (font : Vector Byte 80) : Nat → List Byte → List Host.Cell
  | _, [] => []
  | a, x :: xs =>
    if x = unlistedByte font a then imageCells font (a + 1) xs
    else (a, x) :: imageCells font (a + 1) xs

/-- `RESET(image)` (R291): fresh memory and registers, and the image from `0x200` if it fits; else `LoadSize` and no
byte of it (R292). `KEYS` stay (R290), and so do the parameters, the events to come and the record of a miss
(log 12). -/
def State.resetWith (s : State) (image : List Byte) : State :=
  let fresh : State :=
    { State.reset with keys := s.keys, cfg := s.cfg, events := s.events, missed := s.missed }
  if imageFits image then { fresh with mem := imageCells s.cfg.font progBase image }
  else fresh.raise .loadSize 0

/-- The outcome of a `STEP`, as the output that the host reads (spec/40_cycle.md R128; log 3). -/
def State.reporting (s : State) (r : StepReport) : State := { s with report := some r }

/-- A decode miss `miss(w)` (spec/60_exceptions.md R256): reported and recorded; nothing else. -/
def State.decodeMiss (s : State) (w : Word) : State :=
  { s with report := some (.miss w), missed := true }

/-- The polling step (spec/40_cycle.md R126). -/
def State.poll (s : State) : State :=
  match s.anyPressed with
  | none => s.reporting .waiting
  | some k => ({ s.setV s.kx (k.setWidth 8) with blocked := false } : State).reporting (.keyTaken k)

/-- `getDelayTimer()` (spec/00_scope.md R6). -/
def State.getDelayTimer (s : State) : Byte := s.dt

/-- `getSoundTimer()` (R6). -/
def State.getSoundTimer (s : State) : Byte := s.st

/-- `isBlocked()` (R6). -/
def State.isBlocked (s : State) : Bool := s.blocked

/-- `tone = (ST > 0)` (R262), which the host computes. -/
def State.tone (s : State) : Bool := decide (0 < s.st.toNat)

/-- `FB[k]` (spec/10_state.md R33): the cells in row-major order. -/
def State.fbCell (s : State) (k : Nat) : Bool := s.pix (k % fbW) (k / fbW)

end Sys2Proof.Machine
end

