-- ==== Sys2Proof/Machine/Cycle.lean ====
section
/-! DEFINITION. The `STEP` event (spec/40_cycle.md R120 to R130) and the choice of the next event. -/

namespace Sys2Proof.Machine

/-- The report of an executed instruction (R125, R128): `EXECUTED`, or `FAULT` when it raised. -/
def State.reportEnd (t : State) : State :=
  t.reporting (if t.fcause = .noFault then .executed else .fault t.fcause t.finfo)

/-- An instruction's outcome with its report. -/
def conclude : Host.Outcome State Fault Refusal → Host.Outcome State Fault Refusal
  | .next t => .next t.reportEnd
  | .fault r => .fault r
  | .refused r => .refused r

/-- Fetch, advance, decode, execute (R121 to R125). -/
def State.cycle (s : State) : Host.Outcome State Fault Refusal :=
  match s.fetch with
  | .error t => .next t.reportEnd
  | .ok w =>
    match decode w with
    | none => .next (s.advance.decodeMiss w)
    | some i => conclude (exec i s.advance)

/-- `STEP` (R120): the latches in their order, then the polling step or the cycle. -/
def State.stepEvent (s : State) : Host.Outcome State Fault Refusal :=
  if s.fcause ≠ .noFault then .next (s.reporting .halted)
  else if s.paused then .next (s.reporting .paused)
  else if s.blocked then .next s.poll
  else s.cycle

/-- The event that happens next: the first of the host's, and `STEP` when none is left (log 2). -/
def State.nextEvent (s : State) : Event :=
  match s.events with
  | [] => .step
  | e :: _ => e

/-- The state with its next event taken off the list. -/
def State.takeEvent (s : State) : State := { s with events := s.events.tail }

/-- One atomic event (spec/00_scope.md R5). -/
def State.happen (e : Event) (s : State) : Host.Outcome State Fault Refusal :=
  match e with
  | .reset image => .next (s.resetWith image)
  | .step => s.stepEvent
  | .tick => .next s.tick
  | .setKey code pressed => .next (s.setKey code pressed)
  | .pause => .next s.pause
  | .resume => .next s.resume

/-- The state with an instruction word stored at the program counter, and everything cleared that would keep the next
step from fetching it (log 14). -/
def State.placeWord (s : State) (w : Word) : State :=
  let t : State :=
    { s with
      pc := if s.pc.toNat + 1 < Config.memSize then s.pc else BitVec.ofNat 16 Config.progBase
      fcause := .noFault, finfo := if s.fcause = .noFault then s.finfo else 0
      paused := false, blocked := false, events := [] }
  (t.putByte t.pc.toNat (highByte w)).putByte (t.pc.toNat + 1) (lowByte w)

end Sys2Proof.Machine
end

