-- ==== Sys2Proof/Machine/Step.lean ====
section
/-! DEFINITION. One step of the machine: the next event happens (spec/00_scope.md R5). -/

namespace Sys2Proof.Machine

/-- One step: the next event is taken off the list and happens. -/
def step (s : State) : Host.Outcome State Fault Refusal := s.takeEvent.happen s.nextEvent

/-- The state whose very next step fetches and runs the instruction `w` (log 14). -/
def State.withFetchWord (s : State) (nbits w : Nat) : State := s.placeWord (tableWord nbits w)

end Sys2Proof.Machine
end

