-- ==== Sys2Proof/Safety.lean ====
section
/-! DEFINITION. What a good run is (spec/60_exceptions.md R253) and the invariants that claims use. -/

namespace Sys2Proof.Machine

open Sys2Proof.Config

/-- No fault is recorded: the premise of every claim about a run (R253). -/
def State.good (s : State) : Prop := s.fcause = .noFault

/-- The CORE executes an instruction at this step: the host's next event is `STEP` and no latch holds it back
(spec/40_cycle.md R120). -/
structure State.Running (s : State) : Prop where
  event : s.nextEvent = .step
  noFault : s.fcause = .noFault
  notPaused : s.paused = false
  notBlocked : s.blocked = false

/-- Memory is in its canonical form. -/
def State.memWf (s : State) : Bool := Memory.wf s.cfg.font s.mem

/-- The live entries of the call stack, oldest first (spec/10_state.md R24: the only architectural part). -/
def State.liveStack (s : State) : List Word := s.stack.toList.take s.sp.val

/-- The reachable range of `PC` and of the return addresses (spec/10_state.md R43). -/
structure State.PcBounded (s : State) : Prop where
  pc : s.fcause = .noFault → s.pc.toNat ≤ 0x1002
  returns : ∀ a ∈ s.liveStack, a.toNat ≤ 0x1000

/-- The pairs of `FCAUSE` and `FINFO` that spec/60_exceptions.md R250 allows. -/
def State.latchWf (s : State) : Prop :=
  match s.fcause with
  | .noFault => s.finfo = 0
  | .stackOverflow => s.finfo.toNat ≤ 0x0FFE
  | .stackUnderflow => s.finfo.toNat ≤ 0x0FFE
  | .loadSize => s.finfo = 0
  | .addrRange => 4096 ≤ s.finfo.toNat ∧ s.finfo.toNat ≤ 65550

/-- The instructions that always write `VF` as a flag (spec/42_alu.md R173). -/
def flagWriter : Instr → Bool
  | .add _ _ | .sub _ _ | .shr _ _ | .subn _ _ | .shl _ _ | .drw _ _ _ => true
  | .cls | .ret | .jp _ | .call _ | .sei _ _ | .snei _ _ | .ser _ _ | .sner _ _ => false
  | .movi _ _ | .addi _ _ | .mov _ _ | .or _ _ | .and _ _ | .xor _ _ | .seti _ => false
  | .skp _ | .sknp _ | .getdt _ | .waitk _ | .setdt _ | .setst _ | .iadd _ | .glyph _ => false
  | .bcd _ | .stm _ | .ldm _ => false

/-- The instructions whose own destination field names register 15, or that load up to it (R173). -/
def namesVF : Instr → Bool
  | .movi x _ | .addi x _ | .mov x _ | .or x _ | .and x _ | .xor x _ | .getdt x | .ldm x => x == vf
  | .add x _ | .sub x _ | .shr x _ | .subn x _ | .shl x _ => x == vf
  | .cls | .ret | .jp _ | .call _ | .sei _ _ | .snei _ _ | .ser _ _ | .sner _ _ | .seti _ => false
  | .drw _ _ _ | .skp _ | .sknp _ | .waitk _ | .setdt _ | .setst _ | .iadd _ | .glyph _ => false
  | .bcd _ | .stm _ => false

/-- A cell is under a 1 bit of the sprite rows `0 .. rows - 1` drawn at (`ox`, `oy`) from address `base` on
(spec/44_display.md R214). -/
def State.covered (s : State) (ox oy base rows : Nat) (cx cy : Nat) : Prop :=
  ∃ r, r < rows ∧ ∃ c, c < 8 ∧ (s.byteAt (base + r)).getLsbD (7 - c) = true ∧
    pixCol (ox + c) = pixCol cx ∧ pixRow (oy + r) = pixRow cy

end Sys2Proof.Machine
end

