-- ==== Sys2Proof/Certificates/Slice0/Obligations.lean ====
section
/-! DEFINITION. The statements for the provers. An instruction's meaning is applied to the state whose `pc` is already
advanced (spec/00_scope.md R11). A frame is written `t = { s with f := t.f, … }`: `t` is `s` but for the fields named,
so every other register, latch, cell and byte is as before. -/

open Sys2Proof Sys2Proof.Machine

/-! ### Encoding -/

/-- Words written out from the patterns of R100 (spec/95_test_vectors.md T30) decode to what they stand for, and the
misses among them do not decode. That the patterns are matched exactly, so that those are misses, is the decision D14
(log 18). -/
def Obligations.VectorWordsDecode : Prop :=
  decode 0x00E0 = some .cls ∧ decode 0x00EE = some .ret ∧ decode 0x00E1 = none ∧ decode 0x0000 = none ∧
  decode 0x1ABC = some (.jp 0xABC) ∧ decode 0x3A7F = some (.sei 10 0x7F) ∧
  decode 0x5AB0 = some (.ser 10 11) ∧ decode 0x5AB1 = none ∧ decode 0x8AB7 = some (.subn 10 11) ∧
  decode 0x8AB8 = none ∧ decode 0x8ABE = some (.shl 10 11) ∧ decode 0xB123 = none ∧
  decode 0xC0FF = none ∧ decode 0xD12F = some (.drw 1 2 15) ∧ decode 0xEFA1 = some (.sknp 15) ∧
  decode 0xF00A = some (.waitk 0) ∧ decode 0xFF33 = some (.bcd 15) ∧ decode 0xF075 = none

/-- Decoding the word of an instruction gives the instruction back, every operand at every value. -/
def Obligations.DecodeOfEncodeIsIdentity : Prop :=
  ∀ i : Instr, decode (encode i) = some i ∧
    ∀ rest, decodeBytes (encodeBytes i ++ rest) = .instr i rest

/-- A word that decodes is the word of the instruction it decodes to: two different words never decode to one
instruction. -/
def Obligations.EncodeOfDecodeIsIdentity : Prop :=
  ∀ (w : Word) (i : Instr), decode w = some i → encode i = w

/-- The rows of the opcode map are pairwise disjoint. -/
def Obligations.OpcodeRowsPairwiseDisjoint : Prop :=
  opcodeMap.Pairwise fun r q => ∀ w : Word, ¬ (r.selects w = true ∧ q.selects w = true)

/-- The words that match no row are exactly those of the table of R108, family by family (R110: the function codes
are matched exactly). That the patterns are matched exactly is the decision D14 (log 18). -/
def Obligations.DecodeMissesAreTheListedWords : Prop :=
  ∀ w : Word, decode w = none ↔
    (w.extractLsb' 12 4 = 0x0#4 ∧ fieldNNN w ≠ 0x0E0 ∧ fieldNNN w ≠ 0x0EE) ∨
    (w.extractLsb' 12 4 = 0x5#4 ∧ fieldN w ≠ 0) ∨
    (w.extractLsb' 12 4 = 0x8#4 ∧ fieldN w ∈ [0x8, 0x9, 0xA, 0xB, 0xC, 0xD, 0xF]) ∨
    (w.extractLsb' 12 4 = 0x9#4 ∧ fieldN w ≠ 0) ∨
    w.extractLsb' 12 4 = 0xB#4 ∨ w.extractLsb' 12 4 = 0xC#4 ∨
    (w.extractLsb' 12 4 = 0xE#4 ∧ fieldKK w ≠ 0x9E ∧ fieldKK w ≠ 0xA1) ∨
    (w.extractLsb' 12 4 = 0xF#4 ∧
      fieldKK w ∉ [0x07, 0x0A, 0x15, 0x18, 0x1E, 0x29, 0x33, 0x55, 0x65])

/-- Well-formed source lines stand for instructions: every instruction has a well-formed line; every well-formed line
stands for an instruction; only a well-formed line stands for one, and it is one of the line's mnemonic; SHR and SHL
with one register are lines, and they stand for the shift with `y = 0`. The source form is the decision D20 (R115;
log 17). -/
def Obligations.SourceLinesNameInstructions : Prop :=
  (∀ i : Instr, ∃ l : Source, l.wellFormed = true ∧ l.toInstr = some i) ∧
  (∀ l : Source, l.wellFormed = true → ∃ i, l.toInstr = some i) ∧
  (∀ (l : Source) (i : Instr), l.toInstr = some i → l.wellFormed = true ∧ i.mnemonic = l.mnemonic) ∧
  ∀ x : Nibble, (Source.mk .shr [x.toNat]).toInstr = some (.shr x 0) ∧
    (Source.mk .shl [x.toNat]).toInstr = some (.shl x 0)

/-! ### Control transfer -/

/-- R141: JP sets `pc` to the zero-extended target, whatever it is, and changes nothing else; after a jump to `0xFFF`
the next fetch faults. -/
def Obligations.JumpSetsPc : Prop :=
  (∀ nnn : Addr12, decode (0x1#4 ++ nnn) = some (.jp nnn)) ∧
  (∀ (nnn : Addr12) (s : State), exec (.jp nnn) s = .next { s with pc := nnn.setWidth 16 }) ∧
  ∀ s t : State, exec (.jp 0xFFF) s = .next t →
    ∃ u, t.fetch = .error u ∧ u.fcause = .addrRange

/-- R142: with fewer than 16 live entries CALL pushes the advanced `pc` and jumps; with 16 it pushes nothing, leaves
`pc` alone and records StackOverflow with the address of the CALL (latch and address: the spec's decisions D5 and D6,
log 10 and 16). -/
def Obligations.CallPushesReturnAddress : Prop :=
  (∀ nnn : Addr12, decode (0x2#4 ++ nnn) = some (.call nnn)) ∧
  (∀ (nnn : Addr12) (s : State), s.sp.val < 16 →
    ∃ t, exec (.call nnn) s = .next t ∧ t.pc = nnn.setWidth 16 ∧ t.sp.val = s.sp.val + 1 ∧
      t.liveStack = s.liveStack ++ [s.pc] ∧
      t = { s with pc := t.pc, sp := t.sp, stack := t.stack }) ∧
  ∀ (nnn : Addr12) (s : State), s.sp.val = 16 →
    exec (.call nnn) s = .next { s with fcause := .stackOverflow, finfo := (s.pc - 2).setWidth 17 }

/-- R140: with a live entry RET takes the most recent one into `pc` as it stands, at most `0x1000` where the return
addresses are bounded as R43 has them; with none it changes nothing but the latch, which records StackUnderflow with
the address of the RET (latch and address: the spec's decisions D5 and D6, log 10 and 16). -/
def Obligations.ReturnPopsIntoPc : Prop :=
  decode 0x00EE = some .ret ∧
  (∀ s : State, 0 < s.sp.val →
    ∃ t, exec .ret s = .next t ∧ s.liveStack = t.liveStack ++ [t.pc] ∧ t.sp.val + 1 = s.sp.val ∧
      t = { s with pc := t.pc, sp := t.sp } ∧ (s.PcBounded → t.pc.toNat ≤ 0x1000)) ∧
  ∀ s : State, s.sp.val = 0 →
    exec .ret s = .next { s with fcause := .stackUnderflow, finfo := (s.pc - 2).setWidth 17 }

/-- A RET that finds the live entries of the stack as a CALL left them, whatever the cells above them, resumes after
the CALL, with the live entries as they were before it: a subroutine may itself call and return. -/
def Obligations.ReturnUndoesCall : Prop :=
  ∀ (nnn : Addr12) (s : State), s.sp.val < 16 →
    ∃ t, exec (.call nnn) s = .next t ∧
      ∀ u : State, u.liveStack = t.liveStack →
        ∃ r, exec .ret u = .next r ∧ r.pc = s.pc ∧ r.sp = s.sp ∧ r.liveStack = s.liveStack

/-- R143, R144: SEI and SNEI add 2 to the advanced `pc` when `Vx = kk`, when `Vx ≠ kk`, and do nothing else. -/
def Obligations.ImmediateSkips : Prop :=
  (∀ (x : Nibble) (kk : Byte), decode (0x3#4 ++ (x ++ kk)) = some (.sei x kk) ∧
    decode (0x4#4 ++ (x ++ kk)) = some (.snei x kk)) ∧
  ∀ (x : Nibble) (kk : Byte) (s : State),
    exec (.sei x kk) s = .next { s with pc := if s.getV x = kk then s.pc + 2 else s.pc } ∧
    exec (.snei x kk) s = .next { s with pc := if s.getV x = kk then s.pc else s.pc + 2 }

/-- R145, R146: SER and SNER add 2 to the advanced `pc` when `Vx = Vy`, when `Vx ≠ Vy`, and do nothing else; with `x
= y` SER always skips and SNER never does; a low nibble other than 0 is a decode miss. That such a word is a miss is
the decision D14 (R110; log 18). -/
def Obligations.RegisterSkips : Prop :=
  (∀ x y n : Nibble,
    decode (0x5#4 ++ (x ++ (y ++ n))) = (if n = 0 then some (.ser x y) else none) ∧
    decode (0x9#4 ++ (x ++ (y ++ n))) = (if n = 0 then some (.sner x y) else none)) ∧
  (∀ (x y : Nibble) (s : State),
    exec (.ser x y) s = .next { s with pc := if s.getV x = s.getV y then s.pc + 2 else s.pc } ∧
    exec (.sner x y) s = .next { s with pc := if s.getV x = s.getV y then s.pc else s.pc + 2 }) ∧
  ∀ (x : Nibble) (s : State),
    exec (.ser x x) s = .next { s with pc := s.pc + 2 } ∧ exec (.sner x x) s = .next s

/-! ### Register load and ALU -/

/-- R162, R164: MOVI and MOV put `kk`, the value of `Vy`, into `Vx`; every other register and all else stay. -/
def Obligations.LoadAndCopyRegister : Prop :=
  (∀ (x : Nibble) (kk : Byte), decode (0x6#4 ++ (x ++ kk)) = some (.movi x kk)) ∧
  (∀ x y : Nibble, decode (0x8#4 ++ (x ++ (y ++ 0x0#4))) = some (.mov x y)) ∧
  (∀ (x : Nibble) (kk : Byte) (s : State), ∃ t, exec (.movi x kk) s = .next t ∧
    t = { s with v := t.v } ∧ ∀ r, t.getV r = if r = x then kk else s.getV r) ∧
  (∀ (x y : Nibble) (s : State), ∃ t, exec (.mov x y) s = .next t ∧
    t = { s with v := t.v } ∧ ∀ r, t.getV r = if r = x then s.getV y else s.getV r) ∧
  ∀ (x : Nibble) (s : State), exec (.mov x x) s = .next s

/-- R163: ADDI adds modulo 256, and writes no flag and nothing else. -/
def Obligations.AddImmediateWraps : Prop :=
  (∀ (x : Nibble) (kk : Byte), decode (0x7#4 ++ (x ++ kk)) = some (.addi x kk)) ∧
  (∀ (x : Nibble) (kk : Byte) (s : State), ∃ t, exec (.addi x kk) s = .next t ∧
    t = { s with v := t.v } ∧ (t.getV x).toNat = ((s.getV x).toNat + kk.toNat) % 256 ∧
    ∀ r, r ≠ x → t.getV r = s.getV r) ∧
  ∀ (x : Nibble) (s : State), exec (.addi x 0) s = .next s

/-- R165, R166, R167: OR, AND, XOR are bitwise, and write no flag and nothing else; XOR with `x = y` clears `Vx`. -/
def Obligations.BitwiseOperations : Prop :=
  (∀ x y : Nibble, decode (0x8#4 ++ (x ++ (y ++ 0x1#4))) = some (.or x y) ∧
    decode (0x8#4 ++ (x ++ (y ++ 0x2#4))) = some (.and x y) ∧
    decode (0x8#4 ++ (x ++ (y ++ 0x3#4))) = some (.xor x y)) ∧
  ∀ (x y : Nibble) (s : State),
    (∃ t, exec (.or x y) s = .next t ∧ t = { s with v := t.v } ∧ (∀ r, r ≠ x → t.getV r = s.getV r) ∧
      ∀ k, (t.getV x).getLsbD k = ((s.getV x).getLsbD k || (s.getV y).getLsbD k)) ∧
    (∃ t, exec (.and x y) s = .next t ∧ t = { s with v := t.v } ∧ (∀ r, r ≠ x → t.getV r = s.getV r) ∧
      ∀ k, (t.getV x).getLsbD k = ((s.getV x).getLsbD k && (s.getV y).getLsbD k)) ∧
    (∃ t, exec (.xor x y) s = .next t ∧ t = { s with v := t.v } ∧ (∀ r, r ≠ x → t.getV r = s.getV r) ∧
      (∀ k, (t.getV x).getLsbD k = ((s.getV x).getLsbD k ^^ (s.getV y).getLsbD k)) ∧
      (x = y → t.getV x = 0))

/-- R168: ADD puts the sum modulo 256 in `Vx` and the carry in `VF`; with `x = 15` the sum stands; the operands are
the values before the instruction, `VF` among them. Read first, flag first, result last is the decision D9 (log 16). -/
def Obligations.AddWritesCarry : Prop :=
  (∀ x y : Nibble, decode (0x8#4 ++ (x ++ (y ++ 0x4#4))) = some (.add x y)) ∧
  ∀ (x y : Nibble) (s : State), ∃ t, exec (.add x y) s = .next t ∧ t = { s with v := t.v } ∧
    (t.getV x).toNat = ((s.getV x).toNat + (s.getV y).toNat) % 256 ∧
    (x ≠ vf → t.getV vf = if (s.getV x).toNat + (s.getV y).toNat > 255 then 1 else 0) ∧
    ∀ r, r ≠ x → r ≠ vf → t.getV r = s.getV r

/-- R169, R171: SUB and SUBN put the difference modulo 256 in `Vx`, and in `VF` 1 when the minuend is greater, the
parameter SUB_EQ_FLAG when they are equal, else 0; with `x = 15` the difference stands. The order is the decision D9
(log 16), the parameter D16 (log 1). -/
def Obligations.SubtractWritesNotBorrow : Prop :=
  (∀ x y : Nibble, decode (0x8#4 ++ (x ++ (y ++ 0x5#4))) = some (.sub x y) ∧
    decode (0x8#4 ++ (x ++ (y ++ 0x7#4))) = some (.subn x y)) ∧
  ∀ (x y : Nibble) (s : State),
    (∃ t, exec (.sub x y) s = .next t ∧ t = { s with v := t.v } ∧
      (t.getV x).toNat = ((s.getV x).toNat + 256 - (s.getV y).toNat) % 256 ∧
      (x ≠ vf → t.getV vf =
        if (s.getV x).toNat > (s.getV y).toNat then 1
        else if s.getV x = s.getV y then (if s.cfg.subEqFlag then 1 else 0) else 0) ∧
      ∀ r, r ≠ x → r ≠ vf → t.getV r = s.getV r) ∧
    ∃ t, exec (.subn x y) s = .next t ∧ t = { s with v := t.v } ∧
      (t.getV x).toNat = ((s.getV y).toNat + 256 - (s.getV x).toNat) % 256 ∧
      (x ≠ vf → t.getV vf =
        if (s.getV y).toNat > (s.getV x).toNat then 1
        else if s.getV x = s.getV y then (if s.cfg.subEqFlag then 1 else 0) else 0) ∧
      ∀ r, r ≠ x → r ≠ vf → t.getV r = s.getV r

/-- R170, R172: SHR and SHL shift the register that SHIFT_SRC chooses by one bit into `Vx` and put the bit shifted
out in `VF`; with `x = 15` the shifted value stands. The order is the decision D9 (log 16), the parameter D10 (log
1). -/
def Obligations.ShiftsWriteBitShiftedOut : Prop :=
  (∀ x y : Nibble, decode (0x8#4 ++ (x ++ (y ++ 0x6#4))) = some (.shr x y) ∧
    decode (0x8#4 ++ (x ++ (y ++ 0xE#4))) = some (.shl x y)) ∧
  ∀ (x y : Nibble) (s : State) (a : Byte),
    a = (if s.cfg.shiftSrc = .vx then s.getV x else s.getV y) →
    (∃ t, exec (.shr x y) s = .next t ∧ t = { s with v := t.v } ∧
      (t.getV x).toNat = a.toNat / 2 ∧ (x ≠ vf → (t.getV vf).toNat = a.toNat % 2) ∧
      ∀ r, r ≠ x → r ≠ vf → t.getV r = s.getV r) ∧
    ∃ t, exec (.shl x y) s = .next t ∧ t = { s with v := t.v } ∧
      (t.getV x).toNat = a.toNat * 2 % 256 ∧ (x ≠ vf → (t.getV vf).toNat = a.toNat / 128) ∧
      ∀ r, r ≠ x → r ≠ vf → t.getV r = s.getV r

/-- R173: an instruction that is no flag writer and does not name `VF` as its destination leaves `VF` as it is; a
flag writer whose result goes elsewhere leaves 0 or 1 in it. (R173, an inference of the spec.) -/
def Obligations.OnlyNamedInstructionsWriteVF : Prop :=
  ∀ (i : Instr) (s t : State), exec i s = .next t →
    (flagWriter i = false → namesVF i = false → t.getV vf = s.getV vf) ∧
    ((∃ x y, x ≠ vf ∧ i ∈ [.add x y, .sub x y, .shr x y, .subn x y, .shl x y]) ∨ (∃ x y n, i = .drw x y n) →
      t.getV vf = 0 ∨ t.getV vf = 1)

/-! ### Index register and memory -/

/-- R190: SETI loads the zero-extended `nnn`, which is in 0..4095, and changes nothing else. -/
def Obligations.IndexLoad : Prop :=
  (∀ nnn : Addr12, decode (0xA#4 ++ nnn) = some (.seti nnn)) ∧
  ∀ (nnn : Addr12) (s : State), ∃ t, exec (.seti nnn) s = .next t ∧ t = { s with i := t.i } ∧
    t.i = nnn.setWidth 16 ∧ t.i.toNat = nnn.toNat ∧ t.i.toNat ≤ 4095

/-- IADD adds `Vx` modulo 65536 with no 12-bit mask, no flag and no fault (R191; the policy is the spec's decision
D3, log 20). -/
def Obligations.IndexAddWraps : Prop :=
  (∀ x : Nibble, decode (0xF#4 ++ (x ++ 0x1E#8)) = some (.iadd x)) ∧
  ∀ (x : Nibble) (s : State), ∃ t, exec (.iadd x) s = .next t ∧ t = { s with i := t.i } ∧
    t.i.toNat = (s.i.toNat + (s.getV x).toNat) % 65536

/-- R192: GLYPH puts `GLYPH_BASE + 5 * Vx` in `I`, all 8 bits of `Vx` used (the parameter: D15, log 1). -/
def Obligations.GlyphPointsIndex : Prop :=
  (∀ x : Nibble, decode (0xF#4 ++ (x ++ 0x29#8)) = some (.glyph x)) ∧
  ∀ (x : Nibble) (s : State), ∃ t, exec (.glyph x) s = .next t ∧ t = { s with i := t.i } ∧
    t.i.toNat = (match s.cfg.glyphBase with | .zero => 0x000 | .font => 0x050) + 5 * (s.getV x).toNat

/-- R193: BCD stores the hundreds, tens and units of `Vx` at `I`, `I + 1`, `I + 2`, and nothing else; when one of
them is 4096 or more the digits before it are stored and the latch records it. That the earlier digits stay and the
rest is frozen is the decision D5 (log 16). -/
def Obligations.BcdStoresDigits : Prop :=
  (∀ x : Nibble, decode (0xF#4 ++ (x ++ 0x33#8)) = some (.bcd x)) ∧
  (∀ (x : Nibble) (s : State), s.memWf = true → s.effAddr 2 < 4096 →
    ∃ t, exec (.bcd x) s = .next t ∧ t = { s with mem := t.mem } ∧
      (t.byteAt (s.effAddr 0)).toNat = (s.getV x).toNat / 100 ∧
      (t.byteAt (s.effAddr 1)).toNat = (s.getV x).toNat / 10 % 10 ∧
      (t.byteAt (s.effAddr 2)).toNat = (s.getV x).toNat % 10 ∧
      ∀ a, a ≠ s.effAddr 0 → a ≠ s.effAddr 1 → a ≠ s.effAddr 2 → t.byteAt a = s.byteAt a) ∧
  ∀ (x : Nibble) (s : State), s.memWf = true → 4096 ≤ s.effAddr 2 →
    ∃ t, exec (.bcd x) s = .next t ∧ t.fcause = .addrRange ∧ t.finfo.toNat = max (s.effAddr 0) 4096 ∧
      t = { s with mem := t.mem, fcause := t.fcause, finfo := t.finfo } ∧
      (s.effAddr 0 < 4096 → (t.byteAt (s.effAddr 0)).toNat = (s.getV x).toNat / 100) ∧
      (s.effAddr 1 < 4096 → (t.byteAt (s.effAddr 1)).toNat = (s.getV x).toNat / 10 % 10) ∧
      ∀ a, (s.effAddr 0 < 4096 → a ≠ s.effAddr 0) → (s.effAddr 1 < 4096 → a ≠ s.effAddr 1) →
        t.byteAt a = s.byteAt a

/-- R194: STM stores `V0..Vx` at `I..I+x`, leaves every other byte, and advances `I` only by LDST_INC. The parameter
is D11 (log 1, 11). -/
def Obligations.StoreRegistersToMemory : Prop :=
  (∀ x : Nibble, decode (0xF#4 ++ (x ++ 0x55#8)) = some (.stm x)) ∧
  ∀ (x : Nibble) (s : State), s.memWf = true → s.effAddr x.toNat < 4096 →
    ∃ t, exec (.stm x) s = .next t ∧ t = { s with mem := t.mem, i := t.i } ∧
      t.i = (if s.cfg.ldstInc then s.i + x.setWidth 16 + 1 else s.i) ∧
      (∀ k : Nibble, k ≤ x → t.byteAt (s.effAddr k.toNat) = s.getV k) ∧
      ∀ a, (∀ k : Nibble, k ≤ x → a ≠ s.effAddr k.toNat) → t.byteAt a = s.byteAt a

/-- R195: LDM loads `V0..Vx` from `I..I+x`, leaves every other register and memory, and advances `I` only by
LDST_INC. The parameter is D11 (log 1, 11). -/
def Obligations.LoadRegistersFromMemory : Prop :=
  (∀ x : Nibble, decode (0xF#4 ++ (x ++ 0x65#8)) = some (.ldm x)) ∧
  ∀ (x : Nibble) (s : State), s.effAddr x.toNat < 4096 →
    ∃ t, exec (.ldm x) s = .next t ∧ t = { s with v := t.v, i := t.i } ∧
      t.i = (if s.cfg.ldstInc then s.i + x.setWidth 16 + 1 else s.i) ∧
      ∀ k : Nibble, t.getV k = if k ≤ x then s.byteAt (s.effAddr k.toNat) else s.getV k

/-- A store that runs past memory (the spec's decision D5, log 16): the bytes below 4096 are stored, the latch
records the first address of 4096 or more, `I` stays, and nothing else changes. -/
def Obligations.FaultingStoreKeepsEarlierBytes : Prop :=
  ∀ (x : Nibble) (s : State), s.memWf = true → 4096 ≤ s.effAddr x.toNat →
    ∃ t, exec (.stm x) s = .next t ∧ t.fcause = .addrRange ∧
      t.finfo.toNat = max (s.effAddr 0) 4096 ∧
      t = { s with mem := t.mem, fcause := t.fcause, finfo := t.finfo } ∧
      (∀ k : Nibble, k ≤ x → s.effAddr k.toNat < 4096 → t.byteAt (s.effAddr k.toNat) = s.getV k) ∧
      ∀ a, (∀ k : Nibble, k ≤ x → s.effAddr k.toNat < 4096 → a ≠ s.effAddr k.toNat) →
        t.byteAt a = s.byteAt a

/-- A load that runs past memory (the spec's decision D5, log 16): the registers whose address is below 4096 are
loaded, the latch records the first address of 4096 or more, and nothing else changes. -/
def Obligations.FaultingLoadKeepsEarlierRegisters : Prop :=
  ∀ (x : Nibble) (s : State), 4096 ≤ s.effAddr x.toNat →
    ∃ t, exec (.ldm x) s = .next t ∧ t.fcause = .addrRange ∧
      t.finfo.toNat = max (s.effAddr 0) 4096 ∧
      t = { s with v := t.v, fcause := t.fcause, finfo := t.finfo } ∧
      ∀ k : Nibble, t.getV k =
        if k ≤ x ∧ s.effAddr k.toNat < 4096 then s.byteAt (s.effAddr k.toNat) else s.getV k

/-! ### Display -/

/-- R210: `Pix(x, y)` is the cell `FB[(x mod 64) + 64 * (y mod 32)]`, and `setPixel` writes that cell alone. -/
def Obligations.PixelsAreWrappedCells : Prop :=
  (∀ (s : State) (x y : Nat), s.pix x y = s.fbCell (x % 64 + 64 * (y % 32))) ∧
  ∀ (s : State) (x y : Nat) (b : Bool), (s.setPix x y b) = { s with fb := (s.setPix x y b).fb } ∧
    ∀ k, k < 2048 →
      (s.setPix x y b).fbCell k = if k = x % 64 + 64 * (y % 32) then b else s.fbCell k

/-- R211: CLS clears every cell and changes nothing else. -/
def Obligations.ClearScreenClearsEveryCell : Prop :=
  decode 0x00E0 = some .cls ∧
  ∀ s : State, ∃ t, exec .cls s = .next t ∧ t = { s with fb := t.fb } ∧ ∀ x y, t.pix x y = false

/-- DRW when its rows are in memory: it changes the framebuffer and `VF` alone, and it toggles exactly the cells
under a 1 bit of the sprite, at wrapped coordinates, with the origin read before `VF` is cleared (the spec's decision
D9, log 16). -/
def Obligations.DrawTogglesSpriteCells : Prop :=
  (∀ x y n : Nibble, decode (0xD#4 ++ (x ++ (y ++ n))) = some (.drw x y n)) ∧
  ∀ (x y n : Nibble) (s : State), s.i.toNat + n.toNat ≤ 4096 ∨ n = 0 →
    ∃ t, exec (.drw x y n) s = .next t ∧ t = { s with v := t.v, fb := t.fb } ∧
      (∀ r, r ≠ vf → t.getV r = s.getV r) ∧
      (∀ cx cy, s.covered (s.getV x).toNat (s.getV y).toNat s.i.toNat n.toNat cx cy →
        t.pix cx cy = !s.pix cx cy) ∧
      ∀ cx cy, ¬ s.covered (s.getV x).toNat (s.getV y).toNat s.i.toNat n.toNat cx cy →
        t.pix cx cy = s.pix cx cy

/-- R216: `VF` is 1 after DRW exactly when a 1 bit of the sprite fell on a cell that was 1, and else 0. The origin
is read before `VF` is cleared: the decision D9 (log 16). -/
def Obligations.DrawReportsCollision : Prop :=
  ∀ (x y n : Nibble) (s : State), s.i.toNat + n.toNat ≤ 4096 ∨ n = 0 →
    ∃ t, exec (.drw x y n) s = .next t ∧
      (t.getV vf = 1 ↔ ∃ r, r < n.toNat ∧ ∃ c, c < 8 ∧
        (s.byteAt (s.i.toNat + r)).getLsbD (7 - c) = true ∧
        s.pix ((s.getV x).toNat + c) ((s.getV y).toNat + r) = true) ∧
      (t.getV vf = 1 ∨ t.getV vf = 0)

/-- Drawing the same sprite at the same place twice erases it: the framebuffer is as before the first draw, and the
second draw sets `VF` exactly when a cell under a 1 bit was 0 before the first. (R215, an inference of the spec; the
origin is read first by D9, log 16.) -/
def Obligations.DrawTwiceErases : Prop :=
  ∀ (x y n : Nibble) (s : State), s.i.toNat + n.toNat ≤ 4096 ∨ n = 0 →
    ∃ t, exec (.drw x y n) s = .next t ∧
      (t.getV x = s.getV x → t.getV y = s.getV y →
        ∃ u, exec (.drw x y n) t = .next u ∧ u.fb = s.fb ∧
          (u.getV vf = 1 ↔ ∃ cx cy, s.pix cx cy = false ∧
            s.covered (s.getV x).toNat (s.getV y).toNat s.i.toNat n.toNat cx cy))

/-- A DRW that runs past memory (the spec's decision D5, log 16): the rows whose address is below 4096 are drawn,
`VF` holds their collision, and the latch records the first address of 4096 or more. -/
def Obligations.FaultingDrawKeepsEarlierRows : Prop :=
  ∀ (x y n : Nibble) (s : State), 4096 < s.i.toNat + n.toNat → n ≠ 0 →
    ∃ t, exec (.drw x y n) s = .next t ∧ t.fcause = .addrRange ∧
      t.finfo.toNat = max s.i.toNat 4096 ∧
      t = { s with v := t.v, fb := t.fb, fcause := t.fcause, finfo := t.finfo } ∧
      (∀ r, r ≠ vf → t.getV r = s.getV r) ∧
      (∀ cx cy, s.covered (s.getV x).toNat (s.getV y).toNat s.i.toNat (4096 - s.i.toNat) cx cy →
        t.pix cx cy = !s.pix cx cy) ∧
      (∀ cx cy, ¬ s.covered (s.getV x).toNat (s.getV y).toNat s.i.toNat (4096 - s.i.toNat) cx cy →
        t.pix cx cy = s.pix cx cy) ∧
      (t.getV vf = 1 ↔ ∃ r, s.i.toNat + r < 4096 ∧ ∃ c, c < 8 ∧
        (s.byteAt (s.i.toNat + r)).getLsbD (7 - c) = true ∧
        s.pix ((s.getV x).toNat + c) ((s.getV y).toNat + r) = true) ∧
      (t.getV vf = 1 ∨ t.getV vf = 0)

/-! ### Keys and timers -/

/-- R230, R231: SKP skips when key `Vx` is held, SKNP when it is not; a code of 16 or more reads by KEY_OOR (R237);
nothing else changes. The parameter is D13 (log 1). -/
def Obligations.KeySkips : Prop :=
  (∀ x : Nibble, decode (0xE#4 ++ (x ++ 0x9E#8)) = some (.skp x) ∧
    decode (0xE#4 ++ (x ++ 0xA1#8)) = some (.sknp x)) ∧
  ∀ (x : Nibble) (s : State) (held : Bool),
    held = (if (s.getV x).toNat ≤ 15 ∨ s.cfg.keyOor = .low4 then s.keys.getLsbD ((s.getV x).toNat % 16) else false) →
    exec (.skp x) s = .next { s with pc := if held then s.pc + 2 else s.pc } ∧
    exec (.sknp x) s = .next { s with pc := if held then s.pc else s.pc + 2 }

/-- R236: WAITK sets BLOCKED and remembers `x` in KX, whatever the keys, and changes nothing else. The latch KX is
the decision D17 (log 19). -/
def Obligations.WaitKeySetsLatches : Prop :=
  (∀ x : Nibble, decode (0xF#4 ++ (x ++ 0x0A#8)) = some (.waitk x)) ∧
  ∀ (x : Nibble) (s : State), exec (.waitk x) s = .next { s with kx := x, blocked := true }

/-- R232, R233, R234: GETDT reads `DT` into `Vx`, SETDT and SETST write `DT` and `ST` from `Vx`, and nothing else
changes. Which instruction does what is the decision D12 (log 15). -/
def Obligations.TimerAccess : Prop :=
  (∀ x : Nibble, decode (0xF#4 ++ (x ++ 0x07#8)) = some (.getdt x) ∧
    decode (0xF#4 ++ (x ++ 0x15#8)) = some (.setdt x) ∧ decode (0xF#4 ++ (x ++ 0x18#8)) = some (.setst x)) ∧
  ∀ (x : Nibble) (s : State),
    (∃ t, exec (.getdt x) s = .next t ∧ t = { s with v := t.v } ∧
      ∀ r, t.getV r = if r = x then s.dt else s.getV r) ∧
    exec (.setdt x) s = .next { s with dt := s.getV x } ∧
    exec (.setst x) s = .next { s with st := s.getV x }

/-- R127: AnyPressed is the smallest held code, or none. -/
def Obligations.AnyPressedIsLowestHeldKey : Prop :=
  ∀ s : State, (s.anyPressed = none ↔ ∀ k : Nibble, s.key k = false) ∧
    ∀ k : Nibble, s.anyPressed = some k ↔ s.key k = true ∧ ∀ j : Nibble, j < k → s.key j = false

/-- R126: a STEP while blocked fetches nothing: with no key held only the report changes; else the lowest held code
goes to `V[KX]`, BLOCKED is cleared, and nothing else changes. The polling is the decision D17 (log 19). -/
def Obligations.BlockedStepPollsKeys : Prop :=
  ∀ s : State, s.nextEvent = .step → s.fcause = .noFault → s.paused = false → s.blocked = true →
    ((∀ k : Nibble, s.key k = false) →
      step s = .next { s with events := s.events.tail, report := some .waiting }) ∧
    ∀ k : Nibble, s.key k = true → (∀ j : Nibble, j < k → s.key j = false) →
      ∃ t, step s = .next t ∧ t.blocked = false ∧ t.report = some (.keyTaken k) ∧
        t = { s with v := t.v, blocked := t.blocked, events := s.events.tail, report := t.report } ∧
        ∀ r, t.getV r = if r = s.kx then k.setWidth 8 else s.getV r

/-! ### The step -/

/-- R121 to R125: when the CORE runs and the two bytes at `pc` decode, a step is that instruction's meaning on the
advanced state, with the event taken off the list and the outcome reported. The outcomes are the decision D21 (log
3). -/
def Obligations.StepRunsTheDecodedInstruction : Prop :=
  ∀ (s : State) (i : Instr), s.Running → s.pc.toNat + 1 < 4096 →
    decode (wordOf (s.byteAt s.pc.toNat) (s.byteAt (s.pc.toNat + 1))) = some i →
    step s = conclude (exec i { s with pc := s.pc + 2, events := s.events.tail }) ∧
    ∀ t, exec i { s with pc := s.pc + 2, events := s.events.tail } = .next t →
      step s = .next t.reportEnd ∧ t.reportEnd.report =
        some (if t.fcause = .noFault then .executed else .fault t.fcause t.finfo) ∧
      t.reportEnd = { t with report := t.reportEnd.report }

/-- R121: the fetch reads the word at `pc`, high byte first; when it reaches past memory the step faults at the
failing address, with `pc` not advanced and nothing else changed but the report. That the rest is left as it is is
the decision D5 (log 16). -/
def Obligations.FetchFaultLeavesPc : Prop :=
  (∀ s : State, s.pc.toNat + 1 < 4096 →
    s.fetch = .ok (wordOf (s.byteAt s.pc.toNat) (s.byteAt (s.pc.toNat + 1)))) ∧
  ∀ s : State, s.Running → 4095 ≤ s.pc.toNat →
    ∃ t, step s = .next t ∧ t.fcause = .addrRange ∧ t.finfo.toNat = max s.pc.toNat 4096 ∧
      t.report = some (.fault .addrRange t.finfo) ∧
      t = { s with fcause := t.fcause, finfo := t.finfo, events := s.events.tail, report := t.report }

/-- R256, R124: a word that matches no row is reported and does nothing but advance `pc`. The set of misses is the
decision D14 (log 18), the report D21 (log 3). -/
def Obligations.DecodeMissOnlyAdvances : Prop :=
  ∀ (s : State) (w : Word), s.Running → s.pc.toNat + 1 < 4096 →
    w = wordOf (s.byteAt s.pc.toNat) (s.byteAt (s.pc.toNat + 1)) → decode w = none →
    step s = .next
      { s with pc := s.pc + 2, events := s.events.tail, report := some (.miss w), missed := true }

/-- The fetch reads the high byte at `pc` and the low byte at `pc + 1`, a number that does not wrap (R64), whatever the
parity of `pc` (decision D4); it faults at the first of the two that is 4096 or more (R62, decision D2; log 20). -/
def Obligations.FetchIsBigEndian : Prop :=
  ∀ s : State,
    (s.pc.toNat + 1 < 4096 → ∃ w : Word, s.fetch = .ok w ∧
      w.toNat = (s.byteAt s.pc.toNat).toNat * 256 + (s.byteAt (s.pc.toNat + 1)).toNat) ∧
    (s.pc.toNat = 4095 → s.fetch = .error (s.raise .addrRange 4096)) ∧
    (4096 ≤ s.pc.toNat → s.fetch = .error (s.raise .addrRange s.pc.toNat))

/-- A store is seen by the next fetch: the word written at `pc` and `pc + 1` is the word fetched (R74, an inference
of the spec from R64 and R70). -/
def Obligations.StoredWordIsFetched : Prop :=
  ∀ (s : State) (w : Word), s.memWf = true → s.pc.toNat + 1 < 4096 →
    ((s.putByte s.pc.toNat (highByte w)).putByte (s.pc.toNat + 1) (lowByte w)).fetch = .ok w

/-- The latches hold a STEP back in their order (the spec's decisions D5 and D18, log 16): with a fault recorded it
is HALTED, else when paused it is PAUSED, and only the report changes. -/
def Obligations.LatchesHoldTheStepBack : Prop :=
  ∀ s : State, s.nextEvent = .step →
    (s.fcause ≠ .noFault →
      step s = .next { s with events := s.events.tail, report := some .halted }) ∧
    (s.fcause = .noFault → s.paused = true →
      step s = .next { s with events := s.events.tail, report := some .paused })

/-- BLOCKED goes from 0 to 1 only by a WAITK that is fetched and executed, and from 1 to 0 only by a STEP that finds a
key held or by RESET (R129, an inference of the spec). -/
def Obligations.BlockedChangesOnlyByWaitAndPoll : Prop :=
  ∀ s t : State, step s = .next t →
    (s.blocked = false → t.blocked = true →
      s.Running ∧ ∃ x, decode (wordOf (s.byteAt s.pc.toNat) (s.byteAt (s.pc.toNat + 1))) = some (.waitk x)) ∧
    (s.blocked = true → t.blocked = false →
      (s.nextEvent = .step ∧ ∃ k : Nibble, s.key k = true) ∨ ∃ image, s.nextEvent = .reset image)

/-! ### Events of the host -/

/-- R260: TICK decrements each timer that is not 0, unless paused or faulted, and changes nothing else. The two
gates are the decisions D18 and D5 (log 16). -/
def Obligations.TickCountsDown : Prop :=
  ∀ s : State, s.nextEvent = .tick →
    (s.fcause = .noFault → s.paused = false →
      ∃ t, step s = .next t ∧ t = { s with dt := t.dt, st := t.st, events := s.events.tail } ∧
        t.dt.toNat = s.dt.toNat - 1 ∧ t.st.toNat = s.st.toNat - 1) ∧
    (s.fcause ≠ .noFault ∨ s.paused = true → step s = .next { s with events := s.events.tail })

/-- R261: outside TICK and RESET a timer changes only by its own instruction: executing any other leaves both. -/
def Obligations.TimersChangeOnlyByTickAndSet : Prop :=
  (∀ (i : Instr) (s t : State), exec i s = .next t →
    ((∀ x, i ≠ .setdt x) → t.dt = s.dt) ∧ ((∀ x, i ≠ .setst x) → t.st = s.st)) ∧
  ∀ s t : State, step s = .next t → s.nextEvent ≠ .tick → (∀ image, s.nextEvent ≠ .reset image) →
    (t.dt ≠ s.dt →
      ∃ x, decode (wordOf (s.byteAt s.pc.toNat) (s.byteAt (s.pc.toNat + 1))) = some (.setdt x)) ∧
    (t.st ≠ s.st →
      ∃ x, decode (wordOf (s.byteAt s.pc.toNat) (s.byteAt (s.pc.toNat + 1))) = some (.setst x))

/-- R266: SETKEY writes its own key bit in every state, and nothing else. The 4-bit port is the decision D1 (log
19). -/
def Obligations.SetKeyWritesOneKey : Prop :=
  ∀ (s : State) (code : Nibble) (pressed : Bool), s.nextEvent = .setKey code pressed →
    ∃ t, step s = .next t ∧ t = { s with keys := t.keys, events := s.events.tail } ∧
      ∀ k : Nibble, t.key k = if k = code then pressed else s.key k

/-- R270: PAUSE and RESUME write PAUSED alone, and nothing when faulted. The latch is the decision D18 (log 16). -/
def Obligations.PauseAndResume : Prop :=
  ∀ s : State,
    (s.nextEvent = .pause →
      step s = .next { s with events := s.events.tail, paused := if s.fcause = .noFault then true else s.paused }) ∧
    (s.nextEvent = .resume →
      step s = .next { s with events := s.events.tail, paused := if s.fcause = .noFault then false else s.paused })

/-- RESET with an image that fits (R290 to R293; the zero values and the kept keys are the spec's decisions D7 and D8,
log 7 and 12): every item has its reset value, the image stands at `0x200`, the font at `0x050`, zeros elsewhere; the
keys, the parameters and the coming events stay. -/
def Obligations.ResetLoadsImage : Prop :=
  ∀ (s : State) (image : List Byte), s.nextEvent = .reset image → image.length ≤ 3584 →
    ∃ t, step s = .next t ∧
      t = { State.reset with
            mem := t.mem, keys := s.keys, cfg := s.cfg, events := s.events.tail, missed := s.missed } ∧
      t.memWf = true ∧
      (∀ a (h : a < image.length), t.byteAt (0x200 + a) = image[a]) ∧
      (∀ j (h : j < 80), t.byteAt (0x050 + j) = s.cfg.font[j]) ∧
      ∀ a, (a < 0x050 ∨ 0x0A0 ≤ a ∧ a < 0x200 ∨ 0x200 + image.length ≤ a) → t.byteAt a = 0

/-- RESET with an image of more than 3584 bytes stores none of it and records LoadSize (R292; the state it leaves is
the spec's decision D23). -/
def Obligations.OversizedImageIsRejected : Prop :=
  ∀ (s : State) (image : List Byte), s.nextEvent = .reset image → 3584 < image.length →
    step s = .next { State.reset with
      keys := s.keys, cfg := s.cfg, events := s.events.tail, missed := s.missed, fcause := .loadSize }

/-- After a fault (the spec's decision D5, log 16) no event but SETKEY and RESET changes anything but the report, and
the latch stays. -/
def Obligations.FaultFreezesTheCore : Prop :=
  ∀ s t : State, s.fcause ≠ .noFault → step s = .next t →
    ((∀ c p, s.nextEvent ≠ .setKey c p) → (∀ image, s.nextEvent ≠ .reset image) →
      t = { s with events := s.events.tail, report := t.report }) ∧
    ((∀ image, s.nextEvent ≠ .reset image) → t.fcause = s.fcause ∧ t.finfo = s.finfo)

/-! ### Whole-machine rules and invariants -/

/-- No step but SETKEY changes KEYS. For the instructions and the other events this is R34; that a RESET after power-on
leaves KEYS too is the decision D8 (log 12). -/
def Obligations.KeysWrittenOnlyBySetKey : Prop :=
  ∀ s t : State, step s = .next t → (∀ c p, s.nextEvent ≠ .setKey c p) → t.keys = s.keys

/-- What each instruction may write outside the register file: memory only BCD and STM, the framebuffer only CLS and
DRW, the stack only CALL and RET, `I` only SETI, IADD, GLYPH and (by LDST_INC) STM and LDM, KX and BLOCKED only WAITK,
and no instruction the keys, PAUSED, the parameters, the events, the report or the record of a miss. -/
def Obligations.InstructionsWriteOnlyTheirState : Prop :=
  ∀ (i : Instr) (s t : State), exec i s = .next t →
    ((∀ x, i ≠ .bcd x ∧ i ≠ .stm x) → ∀ a, t.byteAt a = s.byteAt a) ∧
    ((∀ x y n, i ≠ .cls ∧ i ≠ .drw x y n) → t.fb = s.fb) ∧
    ((∀ a, i ≠ .ret ∧ i ≠ .call a) → t.stack = s.stack ∧ t.sp = s.sp) ∧
    ((∀ x a, i ≠ .seti a ∧ i ≠ .iadd x ∧ i ≠ .glyph x) →
      (s.cfg.ldstInc = true → ∀ x, i ≠ .stm x ∧ i ≠ .ldm x) → t.i = s.i) ∧
    ((∀ x, i ≠ .waitk x) → t.kx = s.kx ∧ t.blocked = s.blocked) ∧
    t.keys = s.keys ∧ t.paused = s.paused ∧ t.cfg = s.cfg ∧ t.events = s.events ∧
    t.report = s.report ∧ t.missed = s.missed

/-- Only CALL, RET, DRW with rows, BCD, STM and LDM can raise a fault when they execute, each only the cause R250 gives
it, and an instruction that raises none leaves FCAUSE and FINFO; any other instruction leaves both whatever they are
(R251). The causes and `FINFO` are the decision D6 (log 10). -/
def Obligations.OnlyNamedInstructionsFault : Prop :=
  ∀ (i : Instr) (s t : State), exec i s = .next t →
    (s.fcause = .noFault → t.fcause = .noFault → t.finfo = s.finfo) ∧
    (s.fcause = .noFault → t.fcause ≠ .noFault →
      (t.fcause = .stackOverflow ∧ (∃ a, i = .call a) ∧ s.sp.val = 16 ∧ t.finfo = (s.pc - 2).setWidth 17) ∨
      (t.fcause = .stackUnderflow ∧ i = .ret ∧ s.sp.val = 0 ∧ t.finfo = (s.pc - 2).setWidth 17) ∨
      (t.fcause = .addrRange ∧ 4096 ≤ t.finfo.toNat ∧ t.finfo.toNat ≤ 65550 ∧
        ((∃ x y n, i = .drw x y n ∧ n ≠ 0) ∨ ∃ x, i = .bcd x ∨ i = .stm x ∨ i = .ldm x))) ∧
    (i ≠ .ret → (∀ a, i ≠ .call a) → (∀ x y n, n ≠ 0 → i ≠ .drw x y n) →
      (∀ x, i ≠ .bcd x ∧ i ≠ .stm x ∧ i ≠ .ldm x) → t.fcause = s.fcause ∧ t.finfo = s.finfo)

/-- The state after power-on holds the reset value of every item of R36, and every invariant holds in it. `PC` and
memory outside the font are as the source says; V, I, STACK, SP, DT, ST, BLOCKED, KX, FB, PAUSED, FCAUSE, FINFO, KEYS
are as the spec decides (D5, D7, D8, D18; log 6, 7); the parameters have their defaults (R8, log 1), the font bytes
among them (R41, D19; log 5); the model's own fields are empty (log 2, 3). -/
def Obligations.ResetStateMeetsTheInvariants : Prop :=
  (∀ x, State.reset.getV x = 0) ∧ State.reset.i = 0 ∧ State.reset.pc = 0x200 ∧
  (∀ (k : Nat) (h : k < 16), State.reset.stack[k] = 0) ∧ State.reset.sp.val = 0 ∧ State.reset.liveStack = [] ∧
  State.reset.dt = 0 ∧ State.reset.st = 0 ∧ State.reset.blocked = false ∧ State.reset.kx = 0 ∧
  State.reset.paused = false ∧ State.reset.fcause = .noFault ∧ State.reset.finfo = 0 ∧
  (∀ k, k < 2048 → State.reset.fbCell k = false) ∧ (∀ x y, State.reset.pix x y = false) ∧
  (∀ k : Nibble, State.reset.key k = false) ∧
  (∀ (j : Nat) (h : j < 80), State.reset.byteAt (0x050 + j) = State.reset.cfg.font[j]) ∧
  (∀ a, a < 0x050 ∨ 0x0A0 ≤ a → State.reset.byteAt a = 0) ∧
  State.reset.cfg.font.toList =
    [0xF0, 0x90, 0x90, 0x90, 0xF0, 0x20, 0x60, 0x20, 0x20, 0x70, 0xF0, 0x10, 0xF0, 0x80, 0xF0,
      0xF0, 0x10, 0xF0, 0x10, 0xF0, 0x90, 0x90, 0xF0, 0x10, 0x10, 0xF0, 0x80, 0xF0, 0x10, 0xF0] ++
    [0xF0, 0x80, 0xF0, 0x90, 0xF0, 0xF0, 0x10, 0x20, 0x40, 0x40, 0xF0, 0x90, 0xF0, 0x90, 0xF0,
      0xF0, 0x90, 0xF0, 0x10, 0xF0, 0xF0, 0x90, 0xF0, 0x90, 0x90, 0xE0, 0x90, 0xE0, 0x90, 0xE0] ++
    [0xF0, 0x80, 0x80, 0x80, 0xF0, 0xE0, 0x90, 0x90, 0x90, 0xE0, 0xF0, 0x80, 0xF0, 0x80, 0xF0,
      0xF0, 0x80, 0xF0, 0x80, 0x80] ∧
  State.reset.cfg.glyphBase = .zero ∧ State.reset.cfg.subEqFlag = false ∧ State.reset.cfg.shiftSrc = .vx ∧
  State.reset.cfg.ldstInc = false ∧ State.reset.cfg.keyOor = .notPressed ∧
  State.reset.events = [] ∧ State.reset.report = none ∧ State.reset.missed = false ∧
  State.reset.memWf = true ∧ State.reset.PcBounded ∧ State.reset.latchWf

/-- Every step, whatever the event, keeps memory in its canonical form. -/
def Obligations.StepKeepsMemoryCanonical : Prop :=
  ∀ s t : State, s.memWf = true → step s = .next t → t.memWf = true

/-- Every step, whatever the event, keeps `PC` at most `0x1002` while no fault is recorded, and every live return
address at most `0x1000` (R43, an inference of the spec). -/
def Obligations.StepKeepsPcBounded : Prop :=
  ∀ s t : State, s.PcBounded → step s = .next t → t.PcBounded

/-- Every step, whatever the event, keeps `FCAUSE` and `FINFO` a pair that R250 allows. The codes are the decision
D6 (log 8, 10). -/
def Obligations.StepKeepsFaultLatchLegal : Prop :=
  ∀ s t : State, s.latchWf → step s = .next t → t.latchWf

/-- Every state has a next state: no step ends in the host interface's fault or refusal outcome (log 4), and no event
changes the parameters. -/
def Obligations.EveryStateHasANextState : Prop :=
  ∀ s : State, ∃ t, step s = .next t ∧ t.cfg = s.cfg
end

