-- ==== Sys2Proof/Laws/Decode.lean ====
section
/-! SUPPORT. The laws of the fields and of the formats (spec/30_encoding.md R92, R93): what each field of an encoded
word is, and what a mask leaves of it. -/

namespace Sys2Proof

variable (op x y low : Nibble) (kk : Byte) (nnn : Addr12)

@[simp] theorem fieldNNN_encA : fieldNNN (encA op nnn) = nnn := by
  unfold fieldNNN encA
  exact BitVec.extractLsb'_append_eq_right

/-- Bits of an appended pair, low part. -/
theorem append_low {m n : Nat} (a : BitVec m) (b : BitVec n) {i : Nat} (h : i < n) :
    (a ++ b).getLsbD i = b.getLsbD i := by
  rw [BitVec.getLsbD_append, if_pos h]

/-- Bits of an appended pair, high part. -/
theorem append_high {m n : Nat} (a : BitVec m) (b : BitVec n) (i : Nat) :
    (a ++ b).getLsbD (n + i) = a.getLsbD i := by
  rw [BitVec.getLsbD_append, if_neg (by omega), Nat.add_sub_cancel_left]

@[simp] theorem fieldKK_encXK : fieldKK (encXK op x kk) = kk := by
  apply BitVec.eq_of_getLsbD_eq
  intro i hi
  rw [fieldKK, BitVec.getLsbD_extractLsb', decide_eq_true hi, Bool.true_and, Nat.zero_add]
  exact (append_low op (x ++ kk) (by omega)).trans (append_low x kk hi)

@[simp] theorem fieldX_encXK : fieldX (encXK op x kk) = x := by
  apply BitVec.eq_of_getLsbD_eq
  intro i hi
  rw [fieldX, BitVec.getLsbD_extractLsb', decide_eq_true hi, Bool.true_and]
  exact (append_low op (x ++ kk) (by omega)).trans (append_high x kk i)

@[simp] theorem fieldX_encXF : fieldX (encXF op x kk) = x := fieldX_encXK op x kk

@[simp] theorem fieldX_encXY : fieldX (encXY op x y low) = x := fieldX_encXK op x (y ++ low)

@[simp] theorem fieldY_encXY : fieldY (encXY op x y low) = y := by
  apply BitVec.eq_of_getLsbD_eq
  intro i hi
  rw [fieldY, BitVec.getLsbD_extractLsb', decide_eq_true hi, Bool.true_and]
  exact (append_low op (x ++ (y ++ low)) (by omega)).trans
    ((append_low x (y ++ low) (by omega)).trans (append_high y low i))

@[simp] theorem fieldN_encXY : fieldN (encXY op x y low) = low := by
  apply BitVec.eq_of_getLsbD_eq
  intro i hi
  rw [fieldN, BitVec.getLsbD_extractLsb', decide_eq_true hi, Bool.true_and, Nat.zero_add]
  exact (append_low op (x ++ (y ++ low)) (by omega)).trans
    ((append_low x (y ++ low) (by omega)).trans (append_low y low hi))

/-- A mask of appended parts, where the parts are all ones or zeros. -/
theorem and_ones_zero {m n : Nat} (a : BitVec m) (b : BitVec n) :
    (a ++ b) &&& (BitVec.allOnes m ++ 0#n) = a ++ 0#n := by
  rw [BitVec.and_append, BitVec.and_allOnes, BitVec.and_zero]

/-- A mask that keeps the first part and treats the second by a mask of its own. -/
theorem and_ones_mask {m n : Nat} (a : BitVec m) (b k : BitVec n) :
    (a ++ b) &&& (BitVec.allOnes m ++ k) = a ++ (b &&& k) := by
  rw [BitVec.and_append, BitVec.and_allOnes]

/-- A mask that drops the first part and keeps the second. -/
theorem and_zero_ones {m n : Nat} (a : BitVec m) (b : BitVec n) :
    (a ++ b) &&& (0#m ++ BitVec.allOnes n) = 0#m ++ b := by
  rw [BitVec.and_append, BitVec.and_allOnes, BitVec.and_zero]

/-- What mask `0xF000` leaves. -/
theorem encA_mask : encA op nnn &&& 0xF000 = encA op 0 := and_ones_zero op nnn

theorem encXK_mask : encXK op x kk &&& 0xF000 = encXK op 0 0 := and_ones_zero op (x ++ kk)

theorem encXY_mask : encXY op x y low &&& 0xF000 = encXY op 0 0 0 := and_ones_zero op (x ++ (y ++ low))

/-- What mask `0xF0FF` leaves. -/
theorem encXF_mask : encXF op x kk &&& 0xF0FF = encXF op 0 kk :=
  (and_ones_mask op (x ++ kk) (0#4 ++ BitVec.allOnes 8)).trans
    (congrArg (op ++ ·) (and_zero_ones x kk))

/-- What mask `0xF00F` leaves. -/
theorem encXY_maskLow : encXY op x y low &&& 0xF00F = encXY op 0 0 low :=
  (and_ones_mask op (x ++ (y ++ low)) (0#4 ++ (0#4 ++ BitVec.allOnes 4))).trans
    (congrArg (op ++ ·)
      (by rw [BitVec.and_append, BitVec.and_zero, and_zero_ones]; rfl))

/-- The two bytes of a word make the word (R91). -/
@[simp] theorem wordOf_bytes (w : Word) : wordOf (highByte w) (lowByte w) = w := by
  apply BitVec.eq_of_getLsbD_eq
  intro i hi
  by_cases h : i < 8
  · refine (append_low (highByte w) (lowByte w) h).trans ?_
    rw [lowByte, BitVec.getLsbD_extractLsb', decide_eq_true h, Bool.true_and, Nat.zero_add]
  · obtain ⟨j, rfl⟩ : ∃ j, i = 8 + j := ⟨i - 8, by omega⟩
    refine (append_high (highByte w) (lowByte w) j).trans ?_
    rw [highByte, BitVec.getLsbD_extractLsb', decide_eq_true (show j < 8 by omega), Bool.true_and]

end Sys2Proof
end

