-- ==== Sys2Proof/Laws/State.lean ====
section
/-! SUPPORT. What each named update of State does to each field: one theorem per update says which fields it leaves
as they are, and one per written field says its new value. -/

namespace Sys2Proof.Machine

variable (s : State)

@[simp] theorem State.raise_keeps (c : FaultCause) (info : Nat) :
    (s.raise c info).v = s.v ∧ (s.raise c info).i = s.i ∧ (s.raise c info).pc = s.pc ∧
    (s.raise c info).stack = s.stack ∧ (s.raise c info).sp = s.sp ∧ (s.raise c info).dt = s.dt ∧
    (s.raise c info).st = s.st ∧ (s.raise c info).blocked = s.blocked ∧ (s.raise c info).kx = s.kx ∧
    (s.raise c info).paused = s.paused ∧ (s.raise c info).mem = s.mem ∧ (s.raise c info).fb = s.fb ∧
    (s.raise c info).keys = s.keys ∧ (s.raise c info).cfg = s.cfg ∧ (s.raise c info).events = s.events ∧
    (s.raise c info).report = s.report ∧ (s.raise c info).missed = s.missed := by
  refine ⟨rfl, rfl, rfl, rfl, rfl, rfl, rfl, rfl, rfl, rfl, rfl, rfl, rfl, rfl, rfl, rfl, rfl⟩

@[simp] theorem State.raise_fcause (c : FaultCause) (info : Nat) : (s.raise c info).fcause = c := rfl

@[simp] theorem State.raise_finfo (c : FaultCause) (info : Nat) : (s.raise c info).finfo = BitVec.ofNat 17 info := rfl

@[simp] theorem State.putByte_keeps (a : Nat) (b : Byte) :
    (s.putByte a b).v = s.v ∧ (s.putByte a b).i = s.i ∧ (s.putByte a b).pc = s.pc ∧
    (s.putByte a b).stack = s.stack ∧ (s.putByte a b).sp = s.sp ∧ (s.putByte a b).dt = s.dt ∧
    (s.putByte a b).st = s.st ∧ (s.putByte a b).blocked = s.blocked ∧ (s.putByte a b).kx = s.kx ∧
    (s.putByte a b).paused = s.paused ∧ (s.putByte a b).fcause = s.fcause ∧ (s.putByte a b).finfo = s.finfo ∧
    (s.putByte a b).fb = s.fb ∧ (s.putByte a b).keys = s.keys ∧ (s.putByte a b).cfg = s.cfg ∧
    (s.putByte a b).events = s.events ∧ (s.putByte a b).report = s.report ∧ (s.putByte a b).missed = s.missed := by
  refine ⟨rfl, rfl, rfl, rfl, rfl, rfl, rfl, rfl, rfl, rfl, rfl, rfl, rfl, rfl, rfl, rfl, rfl, rfl⟩

@[simp] theorem State.putByte_mem (a : Nat) (b : Byte) : (s.putByte a b).mem = Memory.set s.cfg.font s.mem a b := rfl

@[simp] theorem State.advance_keeps :
    (s.advance).v = s.v ∧ (s.advance).i = s.i ∧ (s.advance).stack = s.stack ∧ (s.advance).sp = s.sp ∧
    (s.advance).dt = s.dt ∧ (s.advance).st = s.st ∧ (s.advance).blocked = s.blocked ∧ (s.advance).kx = s.kx ∧
    (s.advance).paused = s.paused ∧ (s.advance).fcause = s.fcause ∧ (s.advance).finfo = s.finfo ∧
    (s.advance).mem = s.mem ∧ (s.advance).fb = s.fb ∧ (s.advance).keys = s.keys ∧ (s.advance).cfg = s.cfg ∧
    (s.advance).events = s.events ∧ (s.advance).report = s.report ∧ (s.advance).missed = s.missed := by
  refine ⟨rfl, rfl, rfl, rfl, rfl, rfl, rfl, rfl, rfl, rfl, rfl, rfl, rfl, rfl, rfl, rfl, rfl, rfl⟩

@[simp] theorem State.advance_pc : (s.advance).pc = s.pc + 2#16 := rfl

@[simp] theorem State.setV_keeps (x : Nibble) (b : Byte) :
    (s.setV x b).i = s.i ∧ (s.setV x b).pc = s.pc ∧ (s.setV x b).stack = s.stack ∧ (s.setV x b).sp = s.sp ∧
    (s.setV x b).dt = s.dt ∧ (s.setV x b).st = s.st ∧ (s.setV x b).blocked = s.blocked ∧
    (s.setV x b).kx = s.kx ∧ (s.setV x b).paused = s.paused ∧ (s.setV x b).fcause = s.fcause ∧
    (s.setV x b).finfo = s.finfo ∧ (s.setV x b).mem = s.mem ∧ (s.setV x b).fb = s.fb ∧
    (s.setV x b).keys = s.keys ∧ (s.setV x b).cfg = s.cfg ∧ (s.setV x b).events = s.events ∧
    (s.setV x b).report = s.report ∧ (s.setV x b).missed = s.missed := by
  refine ⟨rfl, rfl, rfl, rfl, rfl, rfl, rfl, rfl, rfl, rfl, rfl, rfl, rfl, rfl, rfl, rfl, rfl, rfl⟩

@[simp] theorem State.setV_v (x : Nibble) (b : Byte) : (s.setV x b).v = s.v.set x.toNat b x.isLt := rfl

@[simp] theorem State.jump_keeps (nnn : Addr12) :
    (s.jump nnn).v = s.v ∧ (s.jump nnn).i = s.i ∧ (s.jump nnn).stack = s.stack ∧ (s.jump nnn).sp = s.sp ∧
    (s.jump nnn).dt = s.dt ∧ (s.jump nnn).st = s.st ∧ (s.jump nnn).blocked = s.blocked ∧
    (s.jump nnn).kx = s.kx ∧ (s.jump nnn).paused = s.paused ∧ (s.jump nnn).fcause = s.fcause ∧
    (s.jump nnn).finfo = s.finfo ∧ (s.jump nnn).mem = s.mem ∧ (s.jump nnn).fb = s.fb ∧
    (s.jump nnn).keys = s.keys ∧ (s.jump nnn).cfg = s.cfg ∧ (s.jump nnn).events = s.events ∧
    (s.jump nnn).report = s.report ∧ (s.jump nnn).missed = s.missed := by
  refine ⟨rfl, rfl, rfl, rfl, rfl, rfl, rfl, rfl, rfl, rfl, rfl, rfl, rfl, rfl, rfl, rfl, rfl, rfl⟩

@[simp] theorem State.jump_pc (nnn : Addr12) : (s.jump nnn).pc = nnn.setWidth 16 := rfl

@[simp] theorem State.skipIf_keeps (c : Bool) :
    (s.skipIf c).v = s.v ∧ (s.skipIf c).i = s.i ∧ (s.skipIf c).stack = s.stack ∧ (s.skipIf c).sp = s.sp ∧
    (s.skipIf c).dt = s.dt ∧ (s.skipIf c).st = s.st ∧ (s.skipIf c).blocked = s.blocked ∧
    (s.skipIf c).kx = s.kx ∧ (s.skipIf c).paused = s.paused ∧ (s.skipIf c).fcause = s.fcause ∧
    (s.skipIf c).finfo = s.finfo ∧ (s.skipIf c).mem = s.mem ∧ (s.skipIf c).fb = s.fb ∧
    (s.skipIf c).keys = s.keys ∧ (s.skipIf c).cfg = s.cfg ∧ (s.skipIf c).events = s.events ∧
    (s.skipIf c).report = s.report ∧ (s.skipIf c).missed = s.missed := by
  unfold State.skipIf; split <;> refine 
    ⟨rfl, rfl, rfl, rfl, rfl, rfl, rfl, rfl, rfl, rfl, rfl, rfl, rfl, rfl, rfl, rfl, rfl, rfl⟩

@[simp] theorem State.skipIf_pc (c : Bool) : (s.skipIf c).pc = if c then s.pc + 2#16 else s.pc := by
  unfold State.skipIf; split <;> rfl

@[simp] theorem State.stepIndex_keeps (x : Nibble) :
    (s.stepIndex x).v = s.v ∧ (s.stepIndex x).pc = s.pc ∧ (s.stepIndex x).stack = s.stack ∧
    (s.stepIndex x).sp = s.sp ∧ (s.stepIndex x).dt = s.dt ∧ (s.stepIndex x).st = s.st ∧
    (s.stepIndex x).blocked = s.blocked ∧ (s.stepIndex x).kx = s.kx ∧ (s.stepIndex x).paused = s.paused ∧
    (s.stepIndex x).fcause = s.fcause ∧ (s.stepIndex x).finfo = s.finfo ∧ (s.stepIndex x).mem = s.mem ∧
    (s.stepIndex x).fb = s.fb ∧ (s.stepIndex x).keys = s.keys ∧ (s.stepIndex x).cfg = s.cfg ∧
    (s.stepIndex x).events = s.events ∧ (s.stepIndex x).report = s.report ∧ (s.stepIndex x).missed = s.missed := by
  unfold State.stepIndex; split <;> refine 
    ⟨rfl, rfl, rfl, rfl, rfl, rfl, rfl, rfl, rfl, rfl, rfl, rfl, rfl, rfl, rfl, rfl, rfl, rfl⟩

@[simp] theorem State.stepIndex_i (x : Nibble) : (s.stepIndex x).i = if s.cfg.ldstInc then s.i + BitVec.ofNat 16 (x.toNat + 1) else s.i := by
  unfold State.stepIndex; split <;> rfl

@[simp] theorem State.setPix_keeps (x y : Nat) (b : Bool) :
    (s.setPix x y b).v = s.v ∧ (s.setPix x y b).i = s.i ∧ (s.setPix x y b).pc = s.pc ∧
    (s.setPix x y b).stack = s.stack ∧ (s.setPix x y b).sp = s.sp ∧ (s.setPix x y b).dt = s.dt ∧
    (s.setPix x y b).st = s.st ∧ (s.setPix x y b).blocked = s.blocked ∧ (s.setPix x y b).kx = s.kx ∧
    (s.setPix x y b).paused = s.paused ∧ (s.setPix x y b).fcause = s.fcause ∧
    (s.setPix x y b).finfo = s.finfo ∧ (s.setPix x y b).mem = s.mem ∧ (s.setPix x y b).keys = s.keys ∧
    (s.setPix x y b).cfg = s.cfg ∧ (s.setPix x y b).events = s.events ∧ (s.setPix x y b).report = s.report ∧
    (s.setPix x y b).missed = s.missed := by
  refine ⟨rfl, rfl, rfl, rfl, rfl, rfl, rfl, rfl, rfl, rfl, rfl, rfl, rfl, rfl, rfl, rfl, rfl, rfl⟩

@[simp] theorem State.clearFb_keeps :
    (s.clearFb).v = s.v ∧ (s.clearFb).i = s.i ∧ (s.clearFb).pc = s.pc ∧ (s.clearFb).stack = s.stack ∧
    (s.clearFb).sp = s.sp ∧ (s.clearFb).dt = s.dt ∧ (s.clearFb).st = s.st ∧ (s.clearFb).blocked = s.blocked ∧
    (s.clearFb).kx = s.kx ∧ (s.clearFb).paused = s.paused ∧ (s.clearFb).fcause = s.fcause ∧
    (s.clearFb).finfo = s.finfo ∧ (s.clearFb).mem = s.mem ∧ (s.clearFb).keys = s.keys ∧
    (s.clearFb).cfg = s.cfg ∧ (s.clearFb).events = s.events ∧ (s.clearFb).report = s.report ∧
    (s.clearFb).missed = s.missed := by
  refine ⟨rfl, rfl, rfl, rfl, rfl, rfl, rfl, rfl, rfl, rfl, rfl, rfl, rfl, rfl, rfl, rfl, rfl, rfl⟩

@[simp] theorem State.clearFb_fb : (s.clearFb).fb = Vector.replicate 32 0 := rfl

@[simp] theorem State.reporting_keeps (r : StepReport) :
    (s.reporting r).v = s.v ∧ (s.reporting r).i = s.i ∧ (s.reporting r).pc = s.pc ∧
    (s.reporting r).stack = s.stack ∧ (s.reporting r).sp = s.sp ∧ (s.reporting r).dt = s.dt ∧
    (s.reporting r).st = s.st ∧ (s.reporting r).blocked = s.blocked ∧ (s.reporting r).kx = s.kx ∧
    (s.reporting r).paused = s.paused ∧ (s.reporting r).fcause = s.fcause ∧ (s.reporting r).finfo = s.finfo ∧
    (s.reporting r).mem = s.mem ∧ (s.reporting r).fb = s.fb ∧ (s.reporting r).keys = s.keys ∧
    (s.reporting r).cfg = s.cfg ∧ (s.reporting r).events = s.events ∧ (s.reporting r).missed = s.missed := by
  refine ⟨rfl, rfl, rfl, rfl, rfl, rfl, rfl, rfl, rfl, rfl, rfl, rfl, rfl, rfl, rfl, rfl, rfl, rfl⟩

@[simp] theorem State.reporting_report (r : StepReport) : (s.reporting r).report = some r := rfl

@[simp] theorem State.decodeMiss_keeps (w : Word) :
    (s.decodeMiss w).v = s.v ∧ (s.decodeMiss w).i = s.i ∧ (s.decodeMiss w).pc = s.pc ∧
    (s.decodeMiss w).stack = s.stack ∧ (s.decodeMiss w).sp = s.sp ∧ (s.decodeMiss w).dt = s.dt ∧
    (s.decodeMiss w).st = s.st ∧ (s.decodeMiss w).blocked = s.blocked ∧ (s.decodeMiss w).kx = s.kx ∧
    (s.decodeMiss w).paused = s.paused ∧ (s.decodeMiss w).fcause = s.fcause ∧
    (s.decodeMiss w).finfo = s.finfo ∧ (s.decodeMiss w).mem = s.mem ∧ (s.decodeMiss w).fb = s.fb ∧
    (s.decodeMiss w).keys = s.keys ∧ (s.decodeMiss w).cfg = s.cfg ∧ (s.decodeMiss w).events = s.events := by
  refine ⟨rfl, rfl, rfl, rfl, rfl, rfl, rfl, rfl, rfl, rfl, rfl, rfl, rfl, rfl, rfl, rfl, rfl⟩

@[simp] theorem State.decodeMiss_report (w : Word) : (s.decodeMiss w).report = some (.miss w) := rfl

@[simp] theorem State.decodeMiss_missed (w : Word) : (s.decodeMiss w).missed = true := rfl

@[simp] theorem State.setKey_keeps (k : Nibble) (p : Bool) :
    (s.setKey k p).v = s.v ∧ (s.setKey k p).i = s.i ∧ (s.setKey k p).pc = s.pc ∧
    (s.setKey k p).stack = s.stack ∧ (s.setKey k p).sp = s.sp ∧ (s.setKey k p).dt = s.dt ∧
    (s.setKey k p).st = s.st ∧ (s.setKey k p).blocked = s.blocked ∧ (s.setKey k p).kx = s.kx ∧
    (s.setKey k p).paused = s.paused ∧ (s.setKey k p).fcause = s.fcause ∧ (s.setKey k p).finfo = s.finfo ∧
    (s.setKey k p).mem = s.mem ∧ (s.setKey k p).fb = s.fb ∧ (s.setKey k p).cfg = s.cfg ∧
    (s.setKey k p).events = s.events ∧ (s.setKey k p).report = s.report ∧ (s.setKey k p).missed = s.missed := by
  refine ⟨rfl, rfl, rfl, rfl, rfl, rfl, rfl, rfl, rfl, rfl, rfl, rfl, rfl, rfl, rfl, rfl, rfl, rfl⟩

@[simp] theorem State.setKey_keys (k : Nibble) (p : Bool) : (s.setKey k p).keys = setBit s.keys k.toNat p := rfl

@[simp] theorem State.takeEvent_keeps :
    (s.takeEvent).v = s.v ∧ (s.takeEvent).i = s.i ∧ (s.takeEvent).pc = s.pc ∧ (s.takeEvent).stack = s.stack ∧
    (s.takeEvent).sp = s.sp ∧ (s.takeEvent).dt = s.dt ∧ (s.takeEvent).st = s.st ∧
    (s.takeEvent).blocked = s.blocked ∧ (s.takeEvent).kx = s.kx ∧ (s.takeEvent).paused = s.paused ∧
    (s.takeEvent).fcause = s.fcause ∧ (s.takeEvent).finfo = s.finfo ∧ (s.takeEvent).mem = s.mem ∧
    (s.takeEvent).fb = s.fb ∧ (s.takeEvent).keys = s.keys ∧ (s.takeEvent).cfg = s.cfg ∧
    (s.takeEvent).report = s.report ∧ (s.takeEvent).missed = s.missed := by
  refine ⟨rfl, rfl, rfl, rfl, rfl, rfl, rfl, rfl, rfl, rfl, rfl, rfl, rfl, rfl, rfl, rfl, rfl, rfl⟩

@[simp] theorem State.takeEvent_events : (s.takeEvent).events = s.events.tail := rfl

/-- The event that a state with no listed events takes is `STEP`. -/
@[simp] theorem State.nextEvent_nil (h : s.events = []) : s.nextEvent = .step := by
  simp [State.nextEvent, h]

/-- The first listed event is the one taken. -/
@[simp] theorem State.nextEvent_cons (e : Event) (es : List Event) (h : s.events = e :: es) :
    s.nextEvent = e := by
  simp [State.nextEvent, h]

/-- A settled outcome is a next state whichever way the instruction ended. -/
theorem settle_eq (r : Except State State) : ∃ t, settle r = .next t := by
  cases r with
  | ok t => exact ⟨t, rfl⟩
  | error t => exact ⟨t, rfl⟩

end Sys2Proof.Machine
end

