-- ==== Sys2Proof/Laws/Memory.lean ====
section
/-! SUPPORT. The laws of memory: read after write, the canonical form is kept, equal contents are equal listings, and
what a run of byte stores does. -/

namespace Sys2Proof.Machine

open Sys2Proof.Config

variable {font : Vector Byte 80}

theorem Memory.wfFrom_cons {lo b : Nat} {x : Byte} {m : List Host.Cell} :
    Memory.wfFrom font lo ((b, x) :: m) = true ↔
      lo ≤ b ∧ b < memSize ∧ x ≠ unlistedByte font b ∧ Memory.wfFrom font (b + 1) m = true := by
  simp [Memory.wfFrom, and_assoc]

theorem Memory.wfFrom_le {lo lo' : Nat} {m : List Host.Cell} (h : lo ≤ lo')
    (hm : Memory.wfFrom font lo' m = true) : Memory.wfFrom font lo m = true := by
  cases m with
  | nil => rfl
  | cons c m =>
    rw [Memory.wfFrom_cons] at *
    exact ⟨by omega, hm.2⟩

/-- An unlisted address of the font's space reads as the font's byte (R41). -/
theorem unlistedByte_font (font : Vector Byte 80) {j : Nat} (h : j < 80) :
    unlistedByte font (0x050 + j) = font[j] := by
  have hj : j < fontSize := h
  simp [unlistedByte, hj, fontBase]

/-- An unlisted address outside the font reads as 0 (R36). -/
theorem unlistedByte_outside (font : Vector Byte 80) {a : Nat} (h : a < 0x050 ∨ 0x0A0 ≤ a) :
    unlistedByte font a = 0 := by
  have ha : ¬ (fontBase ≤ a ∧ a < fontBase + fontSize) := by simp only [fontBase, fontSize]; omega
  rw [unlistedByte, dif_neg ha]; rfl

/-- Memory at reset reads as what is unlisted, everywhere (R36). -/
theorem byteAt_reset (a : Nat) : State.reset.byteAt a = unlistedByte State.reset.cfg.font a := rfl

/-- Below the first address a listing may hold, memory reads as unlisted. -/
theorem Memory.get_below {m : List Host.Cell} : ∀ {lo a : Nat},
    Memory.wfFrom font lo m = true → a < lo → Memory.get font m a = unlistedByte font a := by
  induction m with
  | nil => intros; rfl
  | cons c m ih =>
    intro lo a hm ha
    rw [Memory.wfFrom_cons] at hm
    simp only [Memory.get]
    rw [if_neg (by omega), ih hm.2.2.2 (by omega)]

/-- Read after write, at the same and at every other address. -/
theorem Memory.get_set {m : List Host.Cell} {a : Nat} {x : Byte} (b : Nat) : ∀ {lo : Nat},
    Memory.wfFrom font lo m = true →
      Memory.get font (Memory.set font m a x) b = if b = a then x else Memory.get font m b := by
  induction m with
  | nil =>
    intro lo _
    simp only [Memory.set]
    split
    · rename_i h; split
      · subst_vars; simp [Memory.get]
      · rfl
    · simp only [Memory.get]
  | cons c m ih =>
    intro lo hm
    obtain ⟨d, y⟩ := c
    have hm' := Memory.wfFrom_cons.mp hm
    simp only [Memory.set]
    split
    · rename_i hlt
      split
      · rename_i hx
        split
        · subst_vars
          exact Memory.get_below (Memory.wfFrom_cons.mpr ⟨le_refl d, hm'.2⟩) hlt
        · rfl
      · simp only [Memory.get]
    · split
      · subst_vars
        split
        · rename_i hx
          split
          · subst_vars
            exact Memory.get_below hm'.2.2.2 (Nat.lt_succ_self _)
          · rename_i hb; simp only [Memory.get, if_neg hb]
        · simp only [Memory.get]
          split <;> rfl
      · rename_i h1 h2
        simp only [Memory.get, ih hm'.2.2.2]
        by_cases hb : b = d
        · subst hb; simp [h2, eq_comm]
        · simp [hb]

/-- A store keeps the canonical form. -/
theorem Memory.wfFrom_set {m : List Host.Cell} {a : Nat} {x : Byte} (ha : a < memSize) : ∀ {lo : Nat},
    lo ≤ a → Memory.wfFrom font lo m = true → Memory.wfFrom font lo (Memory.set font m a x) = true := by
  induction m with
  | nil =>
    intro lo hlo _
    simp only [Memory.set]
    split
    · rfl
    · exact Memory.wfFrom_cons.mpr ⟨hlo, ha, by assumption, rfl⟩
  | cons c m ih =>
    intro lo hlo hm
    obtain ⟨d, y⟩ := c
    have hm' := Memory.wfFrom_cons.mp hm
    simp only [Memory.set]
    split
    · split
      · exact hm
      · exact Memory.wfFrom_cons.mpr
          ⟨hlo, ha, by assumption, Memory.wfFrom_cons.mpr ⟨by omega, hm'.2⟩⟩
    · split
      · subst_vars
        split
        · exact Memory.wfFrom_le (by omega) hm'.2.2.2
        · exact Memory.wfFrom_cons.mpr ⟨hlo, ha, by assumption, hm'.2.2.2⟩
      · exact Memory.wfFrom_cons.mpr
          ⟨hm'.1, hm'.2.1, hm'.2.2.1, ih (by omega) hm'.2.2.2⟩

/-- Listings in canonical form with equal contents are equal. -/
theorem Memory.ext_of_get {m : List Host.Cell} : ∀ {lo : Nat} {m' : List Host.Cell},
    Memory.wfFrom font lo m = true → Memory.wfFrom font lo m' = true →
      (∀ a, Memory.get font m a = Memory.get font m' a) → m = m' := by
  induction m with
  | nil =>
    intro lo m' _ h' hget
    cases m' with
    | nil => rfl
    | cons c m' =>
      have := hget c.1
      simp only [Memory.get, if_true] at this
      exact absurd this.symm (Memory.wfFrom_cons.mp h').2.2.1
  | cons c m ih =>
    intro lo m' h h' hget
    obtain ⟨d, y⟩ := c
    have hc := Memory.wfFrom_cons.mp h
    cases m' with
    | nil =>
      have := hget d
      simp only [Memory.get, if_true] at this
      exact absurd this hc.2.2.1
    | cons c' m' =>
      obtain ⟨d', y'⟩ := c'
      have hc' := Memory.wfFrom_cons.mp h'
      have hd : d = d' := by
        rcases Nat.lt_trichotomy d d' with hlt | heq | hlt
        · have := hget d
          rw [Memory.get_below (Memory.wfFrom_cons.mpr ⟨le_refl d', hc'.2⟩) hlt] at this
          simp only [Memory.get, if_true] at this
          exact absurd this hc.2.2.1
        · exact heq
        · have := hget d'
          rw [Memory.get_below (Memory.wfFrom_cons.mpr ⟨le_refl d, hc.2⟩) hlt] at this
          simp only [Memory.get, if_true] at this
          exact absurd this.symm hc'.2.2.1
      subst hd
      have hy : y = y' := by simpa [Memory.get] using hget d
      subst hy
      refine congrArg _ (ih hc.2.2.2 hc'.2.2.2 fun a => ?_)
      by_cases ha : a = d
      · subst ha
        rw [Memory.get_below hc.2.2.2 (Nat.lt_succ_self _),
          Memory.get_below hc'.2.2.2 (Nat.lt_succ_self _)]
      · simpa [Memory.get, ha] using hget a

/-! ### The image of a RESET -/

/-- The listing of an image is in canonical form. -/
theorem imageCells_wf (xs : List Byte) : ∀ {a : Nat}, a + xs.length ≤ memSize →
    Memory.wfFrom font a (imageCells font a xs) = true := by
  induction xs with
  | nil => intros; rfl
  | cons x xs ih =>
    intro a ha
    simp only [List.length_cons] at ha
    have hrest := ih (a := a + 1) (by omega)
    simp only [imageCells]
    split
    · exact Memory.wfFrom_le (by omega) hrest
    · exact Memory.wfFrom_cons.mpr ⟨le_refl a, by omega, by assumption, hrest⟩

/-- Below the place of an image, its listing holds nothing. -/
theorem imageCells_below (xs : List Byte) : ∀ {a b : Nat}, b < a →
    Memory.get font (imageCells font a xs) b = unlistedByte font b := by
  induction xs with
  | nil => intros; rfl
  | cons x xs ih =>
    intro a b hb
    simp only [imageCells]
    split
    · exact ih (by omega)
    · simp only [Memory.get]
      rw [if_neg (by omega), ih (by omega)]

/-- The bytes of an image are where it was placed, and every other address reads as unlisted. -/
theorem imageCells_get (xs : List Byte) : ∀ {a b : Nat},
    Memory.get font (imageCells font a xs) b =
      if h : a ≤ b ∧ b < a + xs.length then xs[b - a]'(by omega) else unlistedByte font b := by
  induction xs with
  | nil =>
    intro a b
    rw [dif_neg (by simp only [List.length_nil]; omega)]
    rfl
  | cons x xs ih =>
    intro a b
    simp only [imageCells, List.length_cons]
    rcases Nat.lt_trichotomy b a with hlt | heq | hgt
    · rw [dif_neg (by omega)]
      exact imageCells_below (x :: xs) hlt
    · subst heq
      simp only [Nat.sub_self, List.getElem_cons_zero]
      rw [dif_pos ⟨le_refl b, by omega⟩]
      split
      · subst_vars
        exact imageCells_below xs (Nat.lt_succ_self _)
      · simp [Memory.get]
    · have hget : ∀ m, (if b = a then x else Memory.get font m b) = Memory.get font m b := fun m => by
        rw [if_neg (by omega)]
      have hstep : (if h : a + 1 ≤ b ∧ b < a + 1 + xs.length then xs[b - (a + 1)]'(by omega)
          else unlistedByte font b) =
          (if h : a ≤ b ∧ b < a + (xs.length + 1) then (x :: xs)[b - a]'(by simp; omega)
          else unlistedByte font b) := by
        by_cases hb : b < a + 1 + xs.length
        · have hsub : b - a = (b - (a + 1)) + 1 := by omega
          rw [dif_pos ⟨by omega, hb⟩, dif_pos ⟨by omega, by omega⟩]
          simp only [hsub, List.getElem_cons_succ]
        · rw [dif_neg (by omega), dif_neg (by omega)]
      split
      · rw [ih, hstep]
      · simp only [Memory.get, hget]
        rw [ih, hstep]

/-! ### Accesses through the state -/

variable {s t : State}

/-- What a read can do (R62). -/
theorem State.memRead_lt {a : Nat} (h : a < 4096) : s.memRead a = .ok (s.byteAt a) := by
  simp [State.memRead, memSize, h]

theorem State.memRead_ge {a : Nat} (h : 4096 ≤ a) : s.memRead a = .error (s.raise .addrRange a) := by
  simp [State.memRead, memSize, Nat.not_lt.mpr h]

/-- What a write can do (R62). -/
theorem State.memWrite_lt {a : Nat} {x : Byte} (h : a < 4096) : s.memWrite a x = .ok (s.putByte a x) := by
  simp [State.memWrite, memSize, h]

theorem State.memWrite_ge {a : Nat} {x : Byte} (h : 4096 ≤ a) :
    s.memWrite a x = .error (s.raise .addrRange a) := by
  simp [State.memWrite, memSize, Nat.not_lt.mpr h]

/-- Read after write through the state. -/
theorem State.byteAt_putByte (h : s.memWf = true) (a b : Nat) (x : Byte) :
    (s.putByte a x).byteAt b = if b = a then x else s.byteAt b := by
  simp only [State.byteAt, State.putByte]
  exact Memory.get_set b h

/-- A store through the state keeps the canonical form. -/
theorem State.memWf_putByte (h : s.memWf = true) {a : Nat} (ha : a < 4096) (x : Byte) :
    (s.putByte a x).memWf = true := by
  simp only [State.memWf, State.putByte, Memory.wf]
  exact Memory.wfFrom_set ha (Nat.zero_le a) h

/-- Reading depends on the listing and the font alone. -/
theorem State.byteAt_congr (hm : t.mem = s.mem) (hc : t.cfg = s.cfg) (a : Nat) :
    t.byteAt a = s.byteAt a := by
  simp [State.byteAt, hm, hc]

/-- The canonical form depends on the listing and the font alone. -/
theorem State.memWf_congr (hm : t.mem = s.mem) (hc : t.cfg = s.cfg) : t.memWf = s.memWf := by
  simp [State.memWf, hm, hc]

/-! ### A run of byte stores -/

/-- A run of stores that fits: it ends normally, only memory changes, and each byte is where it belongs. -/
theorem storeBytes_fits (xs : List Byte) : ∀ {a : Nat} {s : State}, s.memWf = true →
    a + xs.length ≤ 4096 →
    ∃ t, storeBytes xs a s = .ok t ∧ t = { s with mem := t.mem } ∧ t.memWf = true ∧
      ∀ b, t.byteAt b = if h : a ≤ b ∧ b < a + xs.length then xs[b - a]'(by omega) else s.byteAt b := by
  induction xs with
  | nil =>
    intro a s hs _
    exact ⟨s, rfl, rfl, hs, fun b => by rw [dif_neg (by simp only [List.length_nil]; omega)]⟩
  | cons x xs ih =>
    intro a s hs hfit
    simp only [List.length_cons] at hfit ⊢
    obtain ⟨t, ht, heq, hwf, hget⟩ :=
      ih (a := a + 1) (s := s.putByte a x) (State.memWf_putByte hs (by omega) x) (by omega)
    refine ⟨t, by rw [storeBytes, State.memWrite_lt (by omega)]; exact ht, heq, hwf, fun b => ?_⟩
    rw [hget, State.byteAt_putByte hs]
    by_cases hb : a ≤ b ∧ b < a + (xs.length + 1)
    · rw [dif_pos hb]
      by_cases hba : b = a
      · subst hba; simp
      · rw [dif_pos ⟨by omega, by omega⟩]
        have hsub : b - a = (b - (a + 1)) + 1 := by omega
        simp only [hsub, List.getElem_cons_succ]
    · rw [dif_neg hb, dif_neg (by omega), if_neg (by omega)]

/-- A run of stores that does not fit: the first address of 4096 or more is reported, the bytes before it have been
stored (R76), and nothing else changes. -/
theorem storeBytes_overrun (xs : List Byte) : ∀ {a : Nat} {s : State}, s.memWf = true →
    4096 < a + xs.length → xs ≠ [] →
    ∃ t, storeBytes xs a s = .error t ∧
      t = { s with mem := t.mem, fcause := .addrRange, finfo := BitVec.ofNat 17 (max a 4096) } ∧
      t.memWf = true ∧
      ∀ b, t.byteAt b =
        if h : a ≤ b ∧ b < a + xs.length ∧ b < 4096 then xs[b - a]'(by omega) else s.byteAt b := by
  induction xs with
  | nil => intro a s _ _ h; exact absurd rfl h
  | cons x xs ih =>
    intro a s hs hover _
    simp only [List.length_cons] at hover ⊢
    by_cases ha : a < 4096
    · have hne : xs ≠ [] := by rintro rfl; simp only [List.length_nil] at hover; omega
      obtain ⟨t, ht, heq, hwf, hget⟩ :=
        ih (a := a + 1) (s := s.putByte a x) (State.memWf_putByte hs ha x) (by omega) hne
      refine ⟨t, by rw [storeBytes, State.memWrite_lt ha]; exact ht, ?_, hwf, fun b => ?_⟩
      · rw [heq]
        simp only [State.putByte]
        rw [show max (a + 1) 4096 = max a 4096 by omega]
      · rw [hget, State.byteAt_putByte hs]
        by_cases hb : a ≤ b ∧ b < a + (xs.length + 1) ∧ b < 4096
        · rw [dif_pos hb]
          by_cases hba : b = a
          · subst hba; simp
          · rw [dif_pos ⟨by omega, by omega, hb.2.2⟩]
            have hsub : b - a = (b - (a + 1)) + 1 := by omega
            simp only [hsub, List.getElem_cons_succ]
        · rw [dif_neg hb, dif_neg (by omega), if_neg (by omega)]
    · refine ⟨s.raise .addrRange a, by rw [storeBytes, State.memWrite_ge (by omega)], ?_, ?_, ?_⟩
      · simp only [State.raise]
        rw [show max a 4096 = a by omega]
      · rw [State.memWf_congr (s := s) (by simp) (by simp)]; exact hs
      · intro b
        rw [dif_neg (by omega), State.byteAt_congr (s := s) (by simp) (by simp)]

end Sys2Proof.Machine
end

