-- ==== Sys2Proof/Laws/Regs.lean ====
section
/-! SUPPORT. The laws of the register file, the call stack and the load loop. -/

namespace Sys2Proof.Machine

variable {s : State}

/-- Read after write of a register. -/
@[simp] theorem State.getV_setV (s : State) (x y : Nibble) (b : Byte) :
    (s.setV x b).getV y = if y = x then b else s.getV y := by
  simp only [State.getV, State.setV, Vector.getElem_set, BitVec.toNat_inj]
  by_cases h : x = y
  · subst h; simp
  · simp [h, Ne.symm h]

/-- Reading a register depends on the register file alone. -/
theorem State.getV_congr {s t : State} (h : t.v = s.v) (x : Nibble) : t.getV x = s.getV x := by
  simp [State.getV, h]

/-- Two register files are equal when every register reads the same. -/
theorem v_ext {v w : Vector Byte 16}
    (h : ∀ x : Nibble, v[x.toNat]'(x.isLt) = w[x.toNat]'(x.isLt)) : v = w := by
  apply Vector.ext
  intro k hk
  have := h (BitVec.ofNat 4 k)
  simpa [Nat.mod_eq_of_lt hk] using this

/-- Flag first, result second (R161): the flag survives only when the result goes elsewhere. -/
@[simp] theorem State.getV_setFlagThen (s : State) (x y : Nibble) (flag result : Byte) :
    (s.setFlagThen x flag result).getV y =
      if y = x then result else if y = vf then flag else s.getV y := by
  simp [State.setFlagThen]

/-- The two writes touch the register file alone. -/
theorem State.setFlagThen_eq (s : State) (x : Nibble) (flag result : Byte) :
    s.setFlagThen x flag result = { s with v := (s.setFlagThen x flag result).v } := rfl

/-- What a push can do (R30). -/
theorem State.push_lt {x : Word} (h : s.sp.val < 16) :
    ∃ t, s.push x = .ok t ∧ t = { s with stack := t.stack, sp := t.sp } ∧
      t.sp.val = s.sp.val + 1 ∧ t.liveStack = s.liveStack ++ [x] := by
  refine ⟨_, by rw [State.push, dif_pos h], rfl, rfl, ?_⟩
  simp only [State.liveStack, Vector.toList_set]
  rw [List.take_succ_eq_append_getElem (by simp; omega)]
  rw [List.take_set, List.set_eq_of_length_le (by simp)]
  simp

theorem State.push_full {x : Word} (h : s.sp.val = 16) :
    s.push x = .error (s.raise .stackOverflow s.instrAddr) := by
  rw [State.push, dif_neg (by omega)]

/-- What a pop can do (R31). -/
theorem State.pop_pos (h : 0 < s.sp.val) :
    ∃ a t, s.pop = .ok (a, t) ∧ t = { s with sp := t.sp } ∧ t.sp.val + 1 = s.sp.val ∧
      s.liveStack = t.liveStack ++ [a] := by
  refine ⟨_, _, by rw [State.pop, dif_pos h], rfl, by simp; omega, ?_⟩
  simp only [State.liveStack]
  have hn : s.sp.val = (s.sp.val - 1) + 1 := by omega
  have hlen : s.sp.val - 1 < s.stack.toList.length := by simp; omega
  conv_lhs => rw [hn, List.take_succ_eq_append_getElem hlen]
  simp

theorem State.pop_empty (h : s.sp.val = 0) :
    s.pop = .error (s.raise .stackUnderflow s.instrAddr) := by
  rw [State.pop, dif_neg (by omega)]

/-- The number of live entries is `SP`. -/
theorem State.liveStack_length (s : State) : s.liveStack.length = s.sp.val := by
  simp [State.liveStack]; omega

/-- A register number below 16, as a `BitVec 4`. -/
theorem ofNat4_eq_iff {k : Nat} (hk : k < 16) (x : Nibble) : x = BitVec.ofNat 4 k ↔ x.toNat = k := by
  constructor
  · rintro rfl; simp [Nat.mod_eq_of_lt hk]
  · intro h; apply BitVec.eq_of_toNat_eq; simp [h, Nat.mod_eq_of_lt hk]

/-- A run of loads that fits: only the register file changes, and each register has its byte (R195). -/
theorem loadRegs_fits (base : Nat) (count : Nat) : ∀ {k : Nat} {s : State}, k + count ≤ 16 →
    base + k + count ≤ 4096 →
    ∃ t, loadRegs base count k s = .ok t ∧ t = { s with v := t.v } ∧
      ∀ x : Nibble, t.getV x =
        if k ≤ x.toNat ∧ x.toNat < k + count then s.byteAt (base + x.toNat) else s.getV x := by
  induction count with
  | zero =>
    intro k s _ _
    exact ⟨s, rfl, rfl, fun x => by rw [if_neg (by omega)]⟩
  | succ count ih =>
    intro k s hk hfit
    obtain ⟨t, ht, heq, hget⟩ :=
      ih (k := k + 1) (s := s.setV (BitVec.ofNat 4 k) (s.byteAt (base + k))) (by omega) (by omega)
    refine ⟨t, by rw [loadRegs, State.memRead_lt (by omega)]; exact ht, heq, fun x => ?_⟩
    simp only [hget, State.getV_setV, ofNat4_eq_iff (show k < 16 by omega)]
    rw [State.byteAt_congr (s := s) (by simp) (by simp)]
    by_cases hx : x.toNat = k
    · rw [if_neg (by omega), if_pos hx, if_pos (by omega), hx]
    · rw [if_neg hx]
      by_cases hr : k ≤ x.toNat ∧ x.toNat < k + (count + 1)
      · rw [if_pos hr, if_pos (by omega)]
      · rw [if_neg hr, if_neg (by omega)]

/-- A run of loads that does not fit: the registers before the first address of 4096 or more are loaded (R76). -/
theorem loadRegs_overrun (base : Nat) (count : Nat) : ∀ {k : Nat} {s : State}, k + count ≤ 16 →
    0 < count → 4096 < base + k + count →
    ∃ t, loadRegs base count k s = .error t ∧
      t = { s with v := t.v, fcause := .addrRange, finfo := BitVec.ofNat 17 (max (base + k) 4096) } ∧
      ∀ x : Nibble, t.getV x =
        if k ≤ x.toNat ∧ x.toNat < k + count ∧ base + x.toNat < 4096 then s.byteAt (base + x.toNat)
        else s.getV x := by
  induction count with
  | zero => intro k s _ h; omega
  | succ count ih =>
    intro k s hk _ hover
    by_cases ha : base + k < 4096
    · obtain ⟨t, ht, heq, hget⟩ :=
        ih (k := k + 1) (s := s.setV (BitVec.ofNat 4 k) (s.byteAt (base + k))) (by omega) (by omega)
          (by omega)
      refine ⟨t, by rw [loadRegs, State.memRead_lt ha]; exact ht, ?_, fun x => ?_⟩
      · rw [heq, show max (base + (k + 1)) 4096 = max (base + k) 4096 by omega]; rfl
      · simp only [hget, State.getV_setV, ofNat4_eq_iff (show k < 16 by omega)]
        rw [State.byteAt_congr (s := s) (by simp) (by simp)]
        by_cases hx : x.toNat = k
        · rw [if_neg (by omega), if_pos hx, if_pos (by omega), hx]
        · rw [if_neg hx]
          by_cases hr : k ≤ x.toNat ∧ x.toNat < k + (count + 1) ∧ base + x.toNat < 4096
          · rw [if_pos hr, if_pos (by omega)]
          · rw [if_neg hr, if_neg (by omega)]
    · refine ⟨s.raise .addrRange (base + k), by rw [loadRegs, State.memRead_ge (by omega)], ?_, ?_⟩
      · rw [show max (base + k) 4096 = base + k by omega]; rfl
      · intro x
        rw [if_neg (by omega)]; rfl

end Sys2Proof.Machine
end

