-- ==== Sys2Proof/Laws/Display.lean ====
section
/-! SUPPORT. The laws of the framebuffer and of the sprite loops (spec/44_display.md R210 to R216). -/

namespace Sys2Proof.Machine

open Sys2Proof.Config

variable {s : State}

/-- A bit after `setBit`. -/
theorem getLsbD_setBit {n : Nat} (w : BitVec n) (k j : Nat) (b : Bool) (hk : k < n) :
    (setBit w k b).getLsbD j = if j = k then b else w.getLsbD j := by
  unfold setBit
  by_cases hj : j = k
  · subst hj; cases b <;> simp [hk]
  · cases b <;> simp [hj, BitVec.getLsbD_twoPow, Ne.symm hj]
    intro h; exact BitVec.lt_of_getLsbD h

/-- `getPixel` after `setPixel` (R212). -/
theorem State.pix_setPix (s : State) (x y x' y' : Nat) (b : Bool) :
    (s.setPix x y b).pix x' y' =
      if pixCol x' = pixCol x ∧ pixRow y' = pixRow y then b else s.pix x' y' := by
  have hc : pixCol x < 64 := Nat.mod_lt _ (by decide)
  by_cases hr : pixRow y' = pixRow y
  · simp only [State.pix, State.setPix, hr, Vector.getElem_set_self, and_true]
    exact getLsbD_setBit _ _ _ _ hc
  · simp only [State.pix, State.setPix, hr, and_false, if_false]
    rw [Vector.getElem_set_ne _ _ (Ne.symm hr)]

/-- A pixel depends on the framebuffer alone. -/
theorem State.pix_congr {s t : State} (h : t.fb = s.fb) (x y : Nat) : t.pix x y = s.pix x y := by
  simp [State.pix, h]

/-- Two framebuffers are equal when every cell reads the same. -/
theorem fb_ext {s t : State} (h : ∀ x y, s.pix x y = t.pix x y) : s.fb = t.fb := by
  apply Vector.ext
  intro r hr
  apply BitVec.eq_of_getLsbD_eq
  intro c hc
  have := h c r
  simpa [State.pix, pixRow, pixCol, fbW, fbH, Nat.mod_eq_of_lt hr, Nat.mod_eq_of_lt hc] using this

/-- `clear()` (R212). -/
theorem State.pix_clearFb (s : State) (x y : Nat) : s.clearFb.pix x y = false := by
  simp [State.pix, State.clearFb]

/-- Changing `v` and `fb` alone, twice over. -/
theorem vfb_trans {s t u : State} (h1 : t = { s with v := t.v, fb := t.fb })
    (h2 : u = { t with v := u.v, fb := u.fb }) : u = { s with v := u.v, fb := u.fb } := by
  obtain ⟨a, b, rfl⟩ : ∃ a b, t = { s with v := a, fb := b } := ⟨_, _, h1⟩
  exact h2

/-- A 1 bit of the sprite: only the framebuffer and `VF` can change. -/
theorem State.drawBit_eq (s : State) (px py : Nat) :
    s.drawBit px py = { s with v := (s.drawBit px py).v, fb := (s.drawBit px py).fb } := by
  unfold State.drawBit; split <;> rfl

theorem State.pix_drawBit (s : State) (px py cx cy : Nat) :
    (s.drawBit px py).pix cx cy =
      if pixCol cx = pixCol px ∧ pixRow cy = pixRow py then !s.pix cx cy else s.pix cx cy := by
  unfold State.drawBit
  rw [State.pix_setPix]
  have hv : (if s.pix px py then s.setV vf 1#8 else s).pix cx cy = s.pix cx cy := by
    split
    · exact State.pix_congr (by simp) _ _
    · rfl
  rw [hv]
  split
  · rename_i h; simp only [State.pix, h.1, h.2]
  · rfl

theorem State.getV_drawBit (s : State) (px py : Nat) (x : Nibble) :
    (s.drawBit px py).getV x = if x = vf ∧ s.pix px py = true then 1#8 else s.getV x := by
  unfold State.drawBit
  rw [State.getV_congr (s := if s.pix px py then s.setV vf 1#8 else s) (by simp)]
  by_cases hp : s.pix px py = true <;> simp [hp]

/-- The columns `0 .. k - 1` of a sprite row. -/
def State.drawCols (s : State) (ox py : Nat) (row : Byte) (k : Nat) : State :=
  (List.range k).foldl (fun t c => if row.getLsbD (7 - c) then t.drawBit (ox + c) py else t) s

theorem State.drawRow_eq_drawCols (s : State) (ox py : Nat) (row : Byte) :
    s.drawRow ox py row = s.drawCols ox py row 8 := rfl

theorem State.drawCols_succ (s : State) (ox py : Nat) (row : Byte) (k : Nat) :
    s.drawCols ox py row (k + 1) =
      if row.getLsbD (7 - k) then (s.drawCols ox py row k).drawBit (ox + k) py
      else s.drawCols ox py row k := by
  simp [State.drawCols, List.range_succ]

/-- A cell is under a 1 bit of the first `k` columns of a sprite row. -/
def underCols (ox py : Nat) (row : Byte) (k cx cy : Nat) : Prop :=
  pixRow cy = pixRow py ∧ ∃ c, c < k ∧ row.getLsbD (7 - c) = true ∧ pixCol cx = pixCol (ox + c)

/-- What the first columns of a sprite row do: cells under a 1 bit toggle, the others stay; `VF` becomes 1 on a
collision and stays otherwise; nothing else changes. -/
theorem State.drawCols_spec (s : State) (ox py : Nat) (row : Byte) : ∀ k, k ≤ 8 →
    s.drawCols ox py row k =
        { s with v := (s.drawCols ox py row k).v, fb := (s.drawCols ox py row k).fb } ∧
    (∀ x, x ≠ vf → (s.drawCols ox py row k).getV x = s.getV x) ∧
    (∀ cx cy, underCols ox py row k cx cy → (s.drawCols ox py row k).pix cx cy = !s.pix cx cy) ∧
    (∀ cx cy, ¬ underCols ox py row k cx cy → (s.drawCols ox py row k).pix cx cy = s.pix cx cy) ∧
    ((∃ c, c < k ∧ row.getLsbD (7 - c) = true ∧ s.pix (ox + c) py = true) →
      (s.drawCols ox py row k).getV vf = 1#8) ∧
    ((¬ ∃ c, c < k ∧ row.getLsbD (7 - c) = true ∧ s.pix (ox + c) py = true) →
      (s.drawCols ox py row k).getV vf = s.getV vf) := by
  intro k
  induction k with
  | zero =>
    intro _
    have h0 : s.drawCols ox py row 0 = s := rfl
    rw [h0]
    refine ⟨rfl, fun _ _ => rfl, ?_, fun _ _ _ => rfl, ?_, fun _ => rfl⟩
    · rintro cx cy ⟨_, c, hc, _⟩; omega
    · rintro ⟨c, hc, _⟩; omega
  | succ k ih =>
    intro hk
    obtain ⟨h1, h2, h3, h4, h5, h6⟩ := ih (by omega)
    rw [State.drawCols_succ]
    by_cases hb : row.getLsbD (7 - k) = true
    · rw [if_pos hb]
      -- the new cell is none of the earlier columns' cells
      have hnew : ∀ cx cy, pixCol cx = pixCol (ox + k) → ¬ underCols ox py row k cx cy := by
        rintro cx cy hcol ⟨_, c, hc, _, hcol'⟩
        rw [hcol] at hcol'
        simp only [pixCol, fbW] at hcol'
        omega
      have hold : (s.drawCols ox py row k).pix (ox + k) py = s.pix (ox + k) py := h4 _ _ (hnew _ _ rfl)
      refine ⟨?_, ?_, ?_, ?_, ?_, ?_⟩
      · exact vfb_trans h1 (State.drawBit_eq ..)
      · intro x hx
        rw [State.getV_drawBit, if_neg (by simp [hx]), h2 x hx]
      · rintro cx cy ⟨hrow, c, hc, hbit, hcol⟩
        rw [State.pix_drawBit]
        by_cases hck : pixCol cx = pixCol (ox + k)
        · rw [if_pos ⟨hck, hrow⟩, h4 _ _ (hnew _ _ hck)]
        · rw [if_neg (fun h => hck h.1)]
          refine h3 _ _ ⟨hrow, c, ?_, hbit, hcol⟩
          rcases Nat.lt_succ_iff_lt_or_eq.mp hc with h | h
          · exact h
          · subst h; exact absurd hcol hck
      · intro cx cy hn
        rw [State.pix_drawBit, if_neg, h4]
        · rintro ⟨hrow, c, hc, hrest⟩
          exact hn ⟨hrow, c, by omega, hrest⟩
        · rintro ⟨hcol, hrow⟩
          exact hn ⟨hrow, k, by omega, hb, hcol⟩
      · rintro ⟨c, hc, hbit, hp⟩
        rw [State.getV_drawBit, hold]
        by_cases hpk : s.pix (ox + k) py = true
        · simp [hpk]
        · rw [if_neg (by simp [hpk])]
          refine h5 ⟨c, ?_, hbit, hp⟩
          rcases Nat.lt_succ_iff_lt_or_eq.mp hc with h | h
          · exact h
          · subst h; exact absurd hp hpk
      · intro hn
        have hpk : ¬ s.pix (ox + k) py = true := fun h => hn ⟨k, by omega, hb, h⟩
        rw [State.getV_drawBit, hold, if_neg (by simp [hpk])]
        refine h6 ?_
        rintro ⟨c, hc, hrest⟩
        exact hn ⟨c, by omega, hrest⟩
    · rw [if_neg hb]
      have hiff : ∀ {p : Nat → Prop}, (∃ c, c < k + 1 ∧ row.getLsbD (7 - c) = true ∧ p c) ↔
          (∃ c, c < k ∧ row.getLsbD (7 - c) = true ∧ p c) := by
        intro p
        constructor
        · rintro ⟨c, hc, hbit, hp⟩
          rcases Nat.lt_succ_iff_lt_or_eq.mp hc with h | h
          · exact ⟨c, h, hbit, hp⟩
          · subst h; exact absurd hbit hb
        · rintro ⟨c, hc, hrest⟩; exact ⟨c, by omega, hrest⟩
      have hu : ∀ cx cy, underCols ox py row (k + 1) cx cy ↔ underCols ox py row k cx cy := by
        intro cx cy
        simp only [underCols, hiff]
      refine ⟨h1, h2, fun cx cy h => h3 _ _ ((hu _ _).mp h), fun cx cy h => h4 _ _ (fun h' => h ((hu _ _).mpr h')),
        fun h => h5 (hiff.mp h), fun h => h6 (fun h' => h (hiff.mpr h'))⟩

/-- A cell is under a 1 bit of the sprite rows `lo .. hi - 1`. -/
def State.underRows (s : State) (ox oy base lo hi cx cy : Nat) : Prop :=
  ∃ r, lo ≤ r ∧ r < hi ∧ underCols ox (oy + r) (s.byteAt (base + r)) 8 cx cy

/-- A collision of the sprite rows `lo .. hi - 1` with the framebuffer. -/
def State.hitRows (s : State) (ox oy base lo hi : Nat) : Prop :=
  ∃ r, lo ≤ r ∧ r < hi ∧
    ∃ c, c < 8 ∧ (s.byteAt (base + r)).getLsbD (7 - c) = true ∧ s.pix (ox + c) (oy + r) = true

/-- What a state that differs only in `v`, `fb` and the latch shares with the first one. -/
theorem State.underRows_congr {s t : State} (hm : t.mem = s.mem) (hc : t.cfg = s.cfg)
    (ox oy base lo hi cx cy : Nat) :
    t.underRows ox oy base lo hi cx cy ↔ s.underRows ox oy base lo hi cx cy := by
  simp only [State.underRows, State.byteAt_congr hm hc]

theorem State.covered_iff_underRows (s : State) (ox oy base rows cx cy : Nat) :
    s.covered ox oy base rows cx cy ↔ s.underRows ox oy base 0 rows cx cy := by
  constructor
  · rintro ⟨r, hr, c, hc, hbit, hcol, hrow⟩
    exact ⟨r, Nat.zero_le r, hr, hrow.symm, c, hc, hbit, hcol.symm⟩
  · rintro ⟨r, _, hr, hrow, c, hc, hbit, hcol⟩
    exact ⟨r, hr, c, hc, hbit, hcol.symm, hrow.symm⟩

/-- What a run of sprite rows does to `VF` and the framebuffer when the rows `lo .. hi - 1` are drawn. -/
structure Drawn (s t : State) (ox oy base lo hi : Nat) : Prop where
  others : ∀ x, x ≠ vf → t.getV x = s.getV x
  toggled : ∀ cx cy, s.underRows ox oy base lo hi cx cy → t.pix cx cy = !s.pix cx cy
  kept : ∀ cx cy, ¬ s.underRows ox oy base lo hi cx cy → t.pix cx cy = s.pix cx cy
  hit : s.hitRows ox oy base lo hi → t.getV vf = 1#8
  noHit : ¬ s.hitRows ox oy base lo hi → t.getV vf = s.getV vf

theorem Drawn.none (s : State) (ox oy base lo : Nat) : Drawn s s ox oy base lo lo where
  others _ _ := rfl
  toggled := by rintro cx cy ⟨r, _, _, _⟩; omega
  kept _ _ _ := rfl
  hit := by rintro ⟨r, _, _, _⟩; omega
  noHit _ := rfl

/-- One row first, and the rest after it. -/
theorem Drawn.cons {s u : State} {ox oy base lo hi : Nat} (hlo : lo < hi) (hhi : hi ≤ lo + 32)
    (h : Drawn (s.drawRow ox (oy + lo) (s.byteAt (base + lo))) u ox oy base (lo + 1) hi) :
    Drawn s u ox oy base lo hi := by
  rw [State.drawRow_eq_drawCols] at h
  obtain ⟨h1, h2, h3, h4, h5, h6⟩ :=
    s.drawCols_spec ox (oy + lo) (s.byteAt (base + lo)) 8 (le_refl 8)
  generalize s.drawCols ox (oy + lo) (s.byteAt (base + lo)) 8 = t at *
  have hm : t.mem = s.mem := by rw [h1]
  have hc : t.cfg = s.cfg := by rw [h1]
  -- the first row's cells are in no later row
  have hsep : ∀ cx cy, underCols ox (oy + lo) (s.byteAt (base + lo)) 8 cx cy →
      ¬ s.underRows ox oy base (lo + 1) hi cx cy := by
    rintro cx cy ⟨hrow, _⟩ ⟨r, hr1, hr2, hrow', _⟩
    rw [hrow] at hrow'
    simp only [pixRow, fbH] at hrow'
    omega
  have hlater : ∀ r, lo + 1 ≤ r → r < hi → ∀ c, t.pix (ox + c) (oy + r) = s.pix (ox + c) (oy + r) := by
    intro r hr1 hr2 c
    apply h4
    rintro ⟨hrow, _⟩
    simp only [pixRow, fbH] at hrow
    omega
  have hhit : t.hitRows ox oy base (lo + 1) hi ↔ s.hitRows ox oy base (lo + 1) hi := by
    simp only [State.hitRows, State.byteAt_congr hm hc]
    constructor <;> rintro ⟨r, hr1, hr2, c, hc8, hbit, hp⟩ <;> refine ⟨r, hr1, hr2, c, hc8, hbit, ?_⟩
    · rw [← hlater r hr1 hr2]; exact hp
    · rw [hlater r hr1 hr2]; exact hp
  refine ⟨fun x hx => by rw [h.others x hx, h2 x hx], ?_, ?_, ?_, ?_⟩
  · rintro cx cy ⟨r, hr1, hr2, hu⟩
    by_cases hr : r = lo
    · subst hr
      rw [h.kept _ _ (fun h' => hsep _ _ hu ((State.underRows_congr hm hc ..).mp h')), h3 _ _ hu]
    · have hlate : s.underRows ox oy base (lo + 1) hi cx cy := ⟨r, by omega, hr2, hu⟩
      rw [h.toggled _ _ ((State.underRows_congr hm hc ..).mpr hlate),
        h4 _ _ (fun h' => hsep _ _ h' hlate)]
  · intro cx cy hn
    rw [h.kept, h4]
    · exact fun h' => hn ⟨lo, le_refl lo, hlo, h'⟩
    · intro h'
      obtain ⟨r, hr1, hr2, hu⟩ := (State.underRows_congr hm hc ..).mp h'
      exact hn ⟨r, by omega, hr2, hu⟩
  · rintro ⟨r, hr1, hr2, c, hc8, hbit, hp⟩
    by_cases hr : r = lo
    · subst hr
      by_cases hl : t.hitRows ox oy base (r + 1) hi
      · exact h.hit hl
      · rw [h.noHit hl]; exact h5 ⟨c, hc8, hbit, hp⟩
    · exact h.hit (hhit.mpr ⟨r, by omega, hr2, c, hc8, hbit, hp⟩)
  · intro hn
    rw [h.noHit, h6]
    · rintro ⟨c, hc8, hbit, hp⟩
      exact hn ⟨lo, le_refl lo, hlo, c, hc8, hbit, hp⟩
    · intro h'
      obtain ⟨r, hr1, hr2, hu⟩ := hhit.mp h'
      exact hn ⟨r, by omega, hr2, hu⟩

/-- A sprite row changes the register file and the framebuffer alone. -/
theorem State.drawRow_eq (s : State) (ox py : Nat) (row : Byte) :
    s.drawRow ox py row = { s with v := (s.drawRow ox py row).v, fb := (s.drawRow ox py row).fb } := by
  have := (s.drawCols_spec ox py row 8 (le_refl 8)).1
  exact this

/-- Sprite rows that fit memory: they end normally, with every row drawn. -/
theorem drawRows_fits (ox oy base count : Nat) : ∀ {r : Nat} {s : State}, count ≤ 32 →
    base + r + count ≤ 4096 →
    ∃ t, drawRows ox oy base count r s = .ok t ∧ t = { s with v := t.v, fb := t.fb } ∧
      Drawn s t ox oy base r (r + count) := by
  induction count with
  | zero => intro r s _ _; exact ⟨s, rfl, rfl, Drawn.none ..⟩
  | succ count ih =>
    intro r s hc hfit
    obtain ⟨t, ht, heq, hd⟩ :=
      ih (r := r + 1) (s := s.drawRow ox (oy + r) (s.byteAt (base + r))) (by omega) (by omega)
    refine ⟨t, by rw [drawRows, State.memRead_lt (by omega)]; exact ht, ?_, ?_⟩
    · rw [State.drawRow_eq] at heq; exact heq
    · have hend : r + 1 + count = r + (count + 1) := by omega
      rw [hend] at hd
      exact Drawn.cons (by omega) (by omega) hd

/-- Sprite rows that run past memory: the rows before the first address of 4096 or more are drawn (R76). -/
theorem drawRows_overrun (ox oy base count : Nat) : ∀ {r : Nat} {s : State}, count ≤ 32 → 0 < count →
    4096 < base + r + count →
    ∃ t, drawRows ox oy base count r s = .error t ∧
      t = { s with v := t.v, fb := t.fb, fcause := .addrRange, finfo := BitVec.ofNat 17 (max (base + r) 4096) } ∧
      Drawn s t ox oy base r (max r (4096 - base)) := by
  induction count with
  | zero => intro r s _ h; omega
  | succ count ih =>
    intro r s hc _ hover
    by_cases ha : base + r < 4096
    · obtain ⟨t, ht, heq, hd⟩ :=
        ih (r := r + 1) (s := s.drawRow ox (oy + r) (s.byteAt (base + r))) (by omega) (by omega) (by omega)
      refine ⟨t, by rw [drawRows, State.memRead_lt ha]; exact ht, ?_, ?_⟩
      · rw [State.drawRow_eq, show max (base + (r + 1)) 4096 = max (base + r) 4096 by omega] at heq
        exact heq
      · rw [show max (r + 1) (4096 - base) = max r (4096 - base) by omega] at hd
        exact Drawn.cons (by omega) (by omega) hd
    · refine ⟨s.raise .addrRange (base + r), by rw [drawRows, State.memRead_ge (by omega)], ?_, ?_⟩
      · rw [show max (base + r) 4096 = base + r by omega]; rfl
      · rw [show max r (4096 - base) = r by omega]
        exact ⟨fun _ _ => rfl, by rintro cx cy ⟨r', _, _, _⟩; omega, fun _ _ _ => rfl,
          by rintro ⟨r', _, _, _⟩; omega, fun _ => rfl⟩

end Sys2Proof.Machine
end

