-- ==== Sys2Proof/Laws/PerInstr.lean ====
section
/-! SUPPORT. One lemma per instruction about its place in the opcode map (spec/30_encoding.md R100). -/

namespace Sys2Proof.Laws.MapRow

open Sys2Proof

/-- The map has a row under the instruction's mnemonic which its word selects and which gives it back. -/
def Statement (i : Instr) : Prop :=
  ∃ r ∈ opcodeMap, r.mnemonic = i.mnemonic ∧ r.selects (encode i) = true ∧ r.build (encode i) = i

/-- A row's mask and pattern, as an equation. -/
theorem selects_of_eq {r : Row} {w : Word} (h : w &&& r.mask = r.pattern) : r.selects w = true := by
  simp [Row.selects, h]

theorem cls : Statement Instr.cls :=
  ⟨opcodeMap[0], List.getElem_mem _, rfl, selects_of_eq (rfl), rfl⟩

theorem ret : Statement Instr.ret :=
  ⟨opcodeMap[1], List.getElem_mem _, rfl, selects_of_eq (rfl), rfl⟩

theorem jp (nnn : Addr12) : Statement (Instr.jp nnn) :=
  ⟨opcodeMap[2], List.getElem_mem _, rfl, selects_of_eq ((encA_mask _ nnn).trans rfl), congrArg Instr.jp (fieldNNN_encA ..)⟩

theorem call (nnn : Addr12) : Statement (Instr.call nnn) :=
  ⟨opcodeMap[3], List.getElem_mem _, rfl, selects_of_eq ((encA_mask _ nnn).trans rfl), congrArg Instr.call (fieldNNN_encA ..)⟩

theorem sei (x : Nibble) (kk : Byte) : Statement (Instr.sei x kk) :=
  ⟨opcodeMap[4], List.getElem_mem _, rfl, selects_of_eq ((encXK_mask _ x kk).trans rfl), congrArg₂ Instr.sei (fieldX_encXK ..) (fieldKK_encXK ..)⟩

theorem snei (x : Nibble) (kk : Byte) : Statement (Instr.snei x kk) :=
  ⟨opcodeMap[5], List.getElem_mem _, rfl, selects_of_eq ((encXK_mask _ x kk).trans rfl), congrArg₂ Instr.snei (fieldX_encXK ..) (fieldKK_encXK ..)⟩

theorem ser (x y : Nibble) : Statement (Instr.ser x y) :=
  ⟨opcodeMap[6], List.getElem_mem _, rfl, selects_of_eq ((encXY_maskLow _ x y _).trans rfl), congrArg₂ Instr.ser (fieldX_encXY ..) (fieldY_encXY ..)⟩

theorem movi (x : Nibble) (kk : Byte) : Statement (Instr.movi x kk) :=
  ⟨opcodeMap[7], List.getElem_mem _, rfl, selects_of_eq ((encXK_mask _ x kk).trans rfl), congrArg₂ Instr.movi (fieldX_encXK ..) (fieldKK_encXK ..)⟩

theorem addi (x : Nibble) (kk : Byte) : Statement (Instr.addi x kk) :=
  ⟨opcodeMap[8], List.getElem_mem _, rfl, selects_of_eq ((encXK_mask _ x kk).trans rfl), congrArg₂ Instr.addi (fieldX_encXK ..) (fieldKK_encXK ..)⟩

theorem mov (x y : Nibble) : Statement (Instr.mov x y) :=
  ⟨opcodeMap[9], List.getElem_mem _, rfl, selects_of_eq ((encXY_maskLow _ x y _).trans rfl), congrArg₂ Instr.mov (fieldX_encXY ..) (fieldY_encXY ..)⟩

theorem or (x y : Nibble) : Statement (Instr.or x y) :=
  ⟨opcodeMap[10], List.getElem_mem _, rfl, selects_of_eq ((encXY_maskLow _ x y _).trans rfl), congrArg₂ Instr.or (fieldX_encXY ..) (fieldY_encXY ..)⟩

theorem and (x y : Nibble) : Statement (Instr.and x y) :=
  ⟨opcodeMap[11], List.getElem_mem _, rfl, selects_of_eq ((encXY_maskLow _ x y _).trans rfl), congrArg₂ Instr.and (fieldX_encXY ..) (fieldY_encXY ..)⟩

theorem xor (x y : Nibble) : Statement (Instr.xor x y) :=
  ⟨opcodeMap[12], List.getElem_mem _, rfl, selects_of_eq ((encXY_maskLow _ x y _).trans rfl), congrArg₂ Instr.xor (fieldX_encXY ..) (fieldY_encXY ..)⟩

theorem add (x y : Nibble) : Statement (Instr.add x y) :=
  ⟨opcodeMap[13], List.getElem_mem _, rfl, selects_of_eq ((encXY_maskLow _ x y _).trans rfl), congrArg₂ Instr.add (fieldX_encXY ..) (fieldY_encXY ..)⟩

theorem sub (x y : Nibble) : Statement (Instr.sub x y) :=
  ⟨opcodeMap[14], List.getElem_mem _, rfl, selects_of_eq ((encXY_maskLow _ x y _).trans rfl), congrArg₂ Instr.sub (fieldX_encXY ..) (fieldY_encXY ..)⟩

theorem shr (x y : Nibble) : Statement (Instr.shr x y) :=
  ⟨opcodeMap[15], List.getElem_mem _, rfl, selects_of_eq ((encXY_maskLow _ x y _).trans rfl), congrArg₂ Instr.shr (fieldX_encXY ..) (fieldY_encXY ..)⟩

theorem subn (x y : Nibble) : Statement (Instr.subn x y) :=
  ⟨opcodeMap[16], List.getElem_mem _, rfl, selects_of_eq ((encXY_maskLow _ x y _).trans rfl), congrArg₂ Instr.subn (fieldX_encXY ..) (fieldY_encXY ..)⟩

theorem shl (x y : Nibble) : Statement (Instr.shl x y) :=
  ⟨opcodeMap[17], List.getElem_mem _, rfl, selects_of_eq ((encXY_maskLow _ x y _).trans rfl), congrArg₂ Instr.shl (fieldX_encXY ..) (fieldY_encXY ..)⟩

theorem sner (x y : Nibble) : Statement (Instr.sner x y) :=
  ⟨opcodeMap[18], List.getElem_mem _, rfl, selects_of_eq ((encXY_maskLow _ x y _).trans rfl), congrArg₂ Instr.sner (fieldX_encXY ..) (fieldY_encXY ..)⟩

theorem seti (nnn : Addr12) : Statement (Instr.seti nnn) :=
  ⟨opcodeMap[19], List.getElem_mem _, rfl, selects_of_eq ((encA_mask _ nnn).trans rfl), congrArg Instr.seti (fieldNNN_encA ..)⟩

theorem drw (x y n : Nibble) : Statement (Instr.drw x y n) :=
  ⟨opcodeMap[20], List.getElem_mem _, rfl, selects_of_eq ((encXY_mask _ x y n).trans rfl), by
    change Instr.drw _ _ _ = _
    simp only [encode, fieldX_encXY, fieldY_encXY, fieldN_encXY]⟩

theorem skp (x : Nibble) : Statement (Instr.skp x) :=
  ⟨opcodeMap[21], List.getElem_mem _, rfl, selects_of_eq ((encXF_mask _ x _).trans rfl), congrArg Instr.skp (fieldX_encXF ..)⟩

theorem sknp (x : Nibble) : Statement (Instr.sknp x) :=
  ⟨opcodeMap[22], List.getElem_mem _, rfl, selects_of_eq ((encXF_mask _ x _).trans rfl), congrArg Instr.sknp (fieldX_encXF ..)⟩

theorem getdt (x : Nibble) : Statement (Instr.getdt x) :=
  ⟨opcodeMap[23], List.getElem_mem _, rfl, selects_of_eq ((encXF_mask _ x _).trans rfl), congrArg Instr.getdt (fieldX_encXF ..)⟩

theorem waitk (x : Nibble) : Statement (Instr.waitk x) :=
  ⟨opcodeMap[24], List.getElem_mem _, rfl, selects_of_eq ((encXF_mask _ x _).trans rfl), congrArg Instr.waitk (fieldX_encXF ..)⟩

theorem setdt (x : Nibble) : Statement (Instr.setdt x) :=
  ⟨opcodeMap[25], List.getElem_mem _, rfl, selects_of_eq ((encXF_mask _ x _).trans rfl), congrArg Instr.setdt (fieldX_encXF ..)⟩

theorem setst (x : Nibble) : Statement (Instr.setst x) :=
  ⟨opcodeMap[26], List.getElem_mem _, rfl, selects_of_eq ((encXF_mask _ x _).trans rfl), congrArg Instr.setst (fieldX_encXF ..)⟩

theorem iadd (x : Nibble) : Statement (Instr.iadd x) :=
  ⟨opcodeMap[27], List.getElem_mem _, rfl, selects_of_eq ((encXF_mask _ x _).trans rfl), congrArg Instr.iadd (fieldX_encXF ..)⟩

theorem glyph (x : Nibble) : Statement (Instr.glyph x) :=
  ⟨opcodeMap[28], List.getElem_mem _, rfl, selects_of_eq ((encXF_mask _ x _).trans rfl), congrArg Instr.glyph (fieldX_encXF ..)⟩

theorem bcd (x : Nibble) : Statement (Instr.bcd x) :=
  ⟨opcodeMap[29], List.getElem_mem _, rfl, selects_of_eq ((encXF_mask _ x _).trans rfl), congrArg Instr.bcd (fieldX_encXF ..)⟩

theorem stm (x : Nibble) : Statement (Instr.stm x) :=
  ⟨opcodeMap[30], List.getElem_mem _, rfl, selects_of_eq ((encXF_mask _ x _).trans rfl), congrArg Instr.stm (fieldX_encXF ..)⟩

theorem ldm (x : Nibble) : Statement (Instr.ldm x) :=
  ⟨opcodeMap[31], List.getElem_mem _, rfl, selects_of_eq ((encXF_mask _ x _).trans rfl), congrArg Instr.ldm (fieldX_encXF ..)⟩

/-- Every instruction has its row. -/
theorem all (i : Instr) : Statement i := by
  cases i
  case cls => exact cls
  case ret => exact ret
  case jp => exact jp ..
  case call => exact call ..
  case sei => exact sei ..
  case snei => exact snei ..
  case ser => exact ser ..
  case movi => exact movi ..
  case addi => exact addi ..
  case mov => exact mov ..
  case or => exact or ..
  case and => exact and ..
  case xor => exact xor ..
  case add => exact add ..
  case sub => exact sub ..
  case shr => exact shr ..
  case subn => exact subn ..
  case shl => exact shl ..
  case sner => exact sner ..
  case seti => exact seti ..
  case drw => exact drw ..
  case skp => exact skp ..
  case sknp => exact sknp ..
  case getdt => exact getdt ..
  case waitk => exact waitk ..
  case setdt => exact setdt ..
  case setst => exact setst ..
  case iadd => exact iadd ..
  case glyph => exact glyph ..
  case bcd => exact bcd ..
  case stm => exact stm ..
  case ldm => exact ldm ..

end Sys2Proof.Laws.MapRow
end

