-- ==== Sys2Proof/Laws/Step.lean ====
section
/-! SUPPORT. What the fetch and a step can do (spec/40_cycle.md R120 to R128), said once. -/

namespace Sys2Proof.Machine

variable {s t : State}

/-- The two ways a fetch can end (R64, R121). -/
theorem State.fetch_cases (s : State) :
    (s.pc.toNat + 1 < 4096 ∧
      s.fetch = .ok (wordOf (s.byteAt s.pc.toNat) (s.byteAt (s.pc.toNat + 1)))) ∨
    (4095 ≤ s.pc.toNat ∧ s.fetch = .error (s.raise .addrRange (max s.pc.toNat 4096))) := by
  unfold State.fetch
  by_cases h : s.pc.toNat + 1 < 4096
  · exact .inl ⟨h, by rw [State.memRead_lt (by omega)]; simp only [State.memRead_lt h]⟩
  · refine .inr ⟨by omega, ?_⟩
    by_cases h' : s.pc.toNat < 4096
    · rw [State.memRead_lt h']
      simp only [State.memRead_ge (Nat.le_of_not_lt h)]
      rw [show max s.pc.toNat 4096 = s.pc.toNat + 1 by omega]
    · simp only [State.memRead_ge (Nat.le_of_not_lt h')]
      rw [show max s.pc.toNat 4096 = s.pc.toNat by omega]

/-- The fetch reads `pc`, memory and the font alone, and the event list plays no part in it. -/
theorem State.fetch_takeEvent_ok {w : Word} (h : s.takeEvent.fetch = .ok w) : s.fetch = .ok w := by
  rcases s.fetch_cases with ⟨h1, h2⟩ | ⟨h1, h2⟩ <;>
    rcases s.takeEvent.fetch_cases with ⟨g1, g2⟩ | ⟨g1, g2⟩
  · rw [h2]; rw [g2] at h; exact h
  · rw [g2] at h; cases h
  · simp only [State.takeEvent_keeps] at g1; omega
  · rw [g2] at h; cases h

/-- Every instruction answers a next state. -/
theorem exec_next (i : Instr) (s : State) : ∃ t, exec i s = .next t := by
  cases i
  case ret => simp only [exec, execRet]; split <;> exact ⟨_, rfl⟩
  case call => simp only [exec, execCall]; split <;> exact ⟨_, rfl⟩
  case bcd => exact settle_eq _
  case stm => exact settle_eq _
  case ldm => exact settle_eq _
  case drw => exact settle_eq _
  all_goals exact ⟨_, rfl⟩

/-- What a STEP can do (R120): one of the latches holds it back, it polls the keys, its fetch faults, it misses, or it
executes the decoded instruction. -/
theorem State.stepEvent_cases (h : s.stepEvent = .next t) :
    (s.fcause ≠ .noFault ∧ t = s.reporting .halted) ∨
    (s.fcause = .noFault ∧ s.paused = true ∧ t = s.reporting .paused) ∨
    (s.fcause = .noFault ∧ s.paused = false ∧ s.blocked = true ∧ t = s.poll) ∨
    (s.fcause = .noFault ∧ s.paused = false ∧ s.blocked = false ∧ 4095 ≤ s.pc.toNat ∧
      t = (s.raise .addrRange (max s.pc.toNat 4096)).reportEnd) ∨
    (s.fcause = .noFault ∧ s.paused = false ∧ s.blocked = false ∧ s.pc.toNat + 1 < 4096 ∧
      ∃ w, s.fetch = .ok w ∧ w = wordOf (s.byteAt s.pc.toNat) (s.byteAt (s.pc.toNat + 1)) ∧
        ((decode w = none ∧ t = s.advance.decodeMiss w) ∨
          ∃ i u, decode w = some i ∧ exec i s.advance = .next u ∧ t = u.reportEnd)) := by
  unfold State.stepEvent at h
  split at h
  · rename_i hf; cases h; exact .inl ⟨hf, rfl⟩
  rename_i hf
  have hf : s.fcause = .noFault := by simpa using hf
  split at h
  · rename_i hp; cases h; exact .inr (.inl ⟨hf, hp, rfl⟩)
  rename_i hp
  have hp : s.paused = false := by simpa using hp
  split at h
  · rename_i hb; cases h; exact .inr (.inr (.inl ⟨hf, hp, hb, rfl⟩))
  rename_i hb
  have hb : s.blocked = false := by simpa using hb
  unfold State.cycle at h
  rcases s.fetch_cases with ⟨h1, h2⟩ | ⟨h1, h2⟩
  · rw [h2] at h
    refine .inr (.inr (.inr (.inr ⟨hf, hp, hb, h1, _, h2, rfl, ?_⟩)))
    simp only at h
    cases hd : decode (wordOf (s.byteAt s.pc.toNat) (s.byteAt (s.pc.toNat + 1))) with
    | none => rw [hd] at h; cases h; exact .inl ⟨rfl, rfl⟩
    | some i =>
      rw [hd] at h
      obtain ⟨u, hu⟩ := exec_next i s.advance
      simp only [hu, conclude] at h
      cases h
      exact .inr ⟨i, u, rfl, hu, rfl⟩
  · rw [h2] at h
    cases h
    exact .inr (.inr (.inr (.inl ⟨hf, hp, hb, h1, rfl⟩)))

/-- What the polling step can do (R126). -/
theorem State.poll_cases (s : State) :
    (s.anyPressed = none ∧ s.poll = s.reporting .waiting) ∨
    ∃ k, s.anyPressed = some k ∧
      s.poll = ({ s.setV s.kx (k.setWidth 8) with blocked := false } : State).reporting (.keyTaken k) := by
  unfold State.poll
  cases h : s.anyPressed with
  | none => exact .inl ⟨rfl, rfl⟩
  | some k => exact .inr ⟨k, rfl, rfl⟩

/-- What a step can do: the event it takes happens on the state without it. -/
theorem step_cases (h : step s = .next t) :
    (∃ image, s.nextEvent = .reset image ∧ t = s.takeEvent.resetWith image) ∨
    (s.nextEvent = .step ∧ s.takeEvent.stepEvent = .next t) ∨
    (s.nextEvent = .tick ∧ t = s.takeEvent.tick) ∨
    (∃ code pressed, s.nextEvent = .setKey code pressed ∧ t = s.takeEvent.setKey code pressed) ∨
    (s.nextEvent = .pause ∧ t = s.takeEvent.pause) ∨
    (s.nextEvent = .resume ∧ t = s.takeEvent.resume) := by
  unfold step State.happen at h
  split at h <;> rename_i he
  · cases h; exact .inl ⟨_, he, rfl⟩
  · exact .inr (.inl ⟨he, h⟩)
  · cases h; exact .inr (.inr (.inl ⟨he, rfl⟩))
  · cases h; exact .inr (.inr (.inr (.inl ⟨_, _, he, rfl⟩)))
  · cases h; exact .inr (.inr (.inr (.inr (.inl ⟨he, rfl⟩))))
  · cases h; exact .inr (.inr (.inr (.inr (.inr ⟨he, rfl⟩))))

/-- The report at the end of an instruction changes the report alone. -/
theorem State.reportEnd_eq (t : State) : t.reportEnd = { t with report := t.reportEnd.report } := rfl

/-- What RESET leaves (R291): its memory is the image's listing, or nothing when the image is too large. -/
theorem State.resetWith_mem (s : State) (image : List Byte) :
    (s.resetWith image).mem =
      if imageFits image then imageCells s.cfg.font Config.progBase image else [] := by
  unfold State.resetWith; split <;> rfl

/-- RESET keeps memory's canonical form, whatever the memory before it. -/
theorem State.resetWith_memWf (s : State) (image : List Byte) : (s.resetWith image).memWf = true := by
  unfold State.resetWith
  split
  · rename_i h
    have hlen : image.length ≤ 3584 := of_decide_eq_true h
    exact Memory.wfFrom_le (Nat.zero_le _)
      (imageCells_wf image (by simp only [Config.progBase, Config.memSize]; omega))
  · rfl

end Sys2Proof.Machine
end

