-- ==== Sys2Proof/Tests/Slice0.lean ====
section
/-! SUPPORT. Tests. Expected values come from spec/95_test_vectors.md and from the examples of the rules; words are
written out from the patterns of spec/30_encoding.md R100. -/

set_option Elab.async false

namespace Sys2Proof.Tests

open Sys2Proof Sys2Proof.Machine

/-! ### Well-formedness: one ill-formed term for each check -/

theorem test_reg_16_refused : isReg 16 = false ∧ (Source.mk .bcd [16]).wellFormed = false := by decide
theorem test_imm8_256_refused : isImm8 256 = false ∧ (Source.mk .movi [0, 256]).wellFormed = false := by decide
theorem test_addr12_4096_refused :
    isAddr12 4096 = false ∧ (Source.mk .jp [4096]).wellFormed = false := by decide
theorem test_count_16_refused : isCount 16 = false ∧ (Source.mk .drw [0, 0, 16]).wellFormed = false := by decide
theorem test_operand_number_refused :
    (Source.mk .cls [0]).wellFormed = false ∧ (Source.mk .add [1]).wellFormed = false ∧
      (Source.mk .skp []).wellFormed = false ∧ (Source.mk .add [1]).toInstr = none := by decide
theorem test_one_operand_shift : Mnemonic.oneOperandShift .add = false ∧
    (Source.mk .shr [3]).toInstr = some (.shr 3 0) := by decide
theorem test_label_twice_refused : labelsDistinct [.label "a", .label "a"] = false ∧
    assembleLines [.code .movi [.num 0, .label "a"], .label "a"] = none ∧
    assembleLines [.code .jp [.label "b"]] = none ∧ assembleLines [.db [256]] = none := by decide +kernel
-- spec/95_test_vectors.md P1
theorem test_assemble_P1 : assembleLines
    [.code .movi [.num 0, .num 0], .code .movi [.num 1, .num 1], .label "loop", .code .add [.num 0, .num 1],
      .code .addi [.num 1, .num 1], .code .sei [.num 1, .num 0x0B], .code .jp [.label "loop"],
      .label "done", .code .jp [.label "done"]] =
    some [0x60, 0x00, 0x61, 0x01, 0x80, 0x14, 0x71, 0x01, 0x31, 0x0B, 0x12, 0x04, 0x12, 0x0C] := by decide +kernel
theorem test_image_3585_refused : imageFits (List.replicate 3585 0) = false ∧
    imageFits (List.replicate 3584 0) = true := by decide +kernel

/-! ### Decoding: a word of every row, bit by bit -/

theorem test_decode_Z : decode 0b0000_0000_1110_0000 = some .cls ∧
    decode 0b0000_0000_1110_1110 = some .ret := by decide +kernel
theorem test_decode_A : decode 0b0001_1010_1011_1100 = some (.jp 0xABC) ∧
    decode 0b0010_0011_0000_0000 = some (.call 0x300) ∧
    decode 0b1010_0010_1111_0000 = some (.seti 0x2F0) := by decide +kernel
theorem test_decode_XK : decode 0b0011_1010_0111_1111 = some (.sei 10 0x7F) ∧
    decode 0b0100_0011_0010_1010 = some (.snei 3 0x2A) ∧
    decode 0b0110_1010_0010_1111 = some (.movi 10 0x2F) ∧
    decode 0b0111_0000_0000_0010 = some (.addi 0 2) := by decide +kernel
theorem test_decode_XY_skips : decode 0b0101_1010_1011_0000 = some (.ser 10 11) ∧
    decode 0b1001_0001_0010_0000 = some (.sner 1 2) := by decide +kernel
theorem test_decode_XY_plain : decode 0b1000_0001_0010_0000 = some (.mov 1 2) ∧
    decode 0b1000_0001_0010_0001 = some (.or 1 2) ∧ decode 0b1000_0001_0010_0010 = some (.and 1 2) ∧
    decode 0b1000_0001_0010_0011 = some (.xor 1 2) := by decide +kernel
theorem test_decode_XY_flag : decode 0b1000_0000_0001_0100 = some (.add 0 1) ∧
    decode 0b1000_0000_0001_0101 = some (.sub 0 1) ∧ decode 0b1000_0011_0000_0110 = some (.shr 3 0) ∧
    decode 0b1000_1010_1011_0111 = some (.subn 10 11) ∧
    decode 0b1000_1010_1011_1110 = some (.shl 10 11) := by decide +kernel
theorem test_decode_XYN : decode 0b1101_0001_0010_1111 = some (.drw 1 2 15) := by decide +kernel
theorem test_decode_XF_keys : decode 0b1110_0000_1001_1110 = some (.skp 0) ∧
    decode 0b1110_1111_1010_0001 = some (.sknp 15) ∧
    decode 0b1111_0000_0000_1010 = some (.waitk 0) := by decide +kernel
theorem test_decode_XF_timers : decode 0b1111_0101_0000_0111 = some (.getdt 5) ∧
    decode 0b1111_0101_0001_0101 = some (.setdt 5) ∧
    decode 0b1111_0001_0001_1000 = some (.setst 1) := by decide +kernel
theorem test_decode_XF_index : decode 0b1111_0010_0001_1110 = some (.iadd 2) ∧
    decode 0b1111_0100_0010_1001 = some (.glyph 4) ∧ decode 0b1111_1111_0011_0011 = some (.bcd 15) ∧
    decode 0b1111_0010_0101_0101 = some (.stm 2) ∧
    decode 0b1111_0001_0110_0101 = some (.ldm 1) := by decide +kernel
theorem test_decode_misses : decode 0x0123 = none ∧ decode 0x5AB1 = none ∧ decode 0x8ABF = none ∧
    decode 0xB123 = none ∧ decode 0xC0FF = none ∧ decode 0xE09F = none ∧
    decode 0xF075 = none := by decide +kernel
theorem test_decode_bytes : decodeBytes [0x12, 0x34, 0x56] = .instr (.jp 0x234) [0x56] ∧
    decodeBytes [0x00, 0x00] = .miss 0 [] ∧ decodeBytes [0x12] = .truncated := by decide +kernel
theorem test_table_word : decodeTableWord 16 0x8014 = some (.add 0 1) := by decide +kernel

/-! ### One step of each instruction -/

/-- The reset state with a word at `0x200`, some registers, and `I`. -/
def prep (w : Nat) (regs : List (Nibble × Byte)) (i : Word := 0) : State :=
  { regs.foldl (fun s p => s.setV p.1 p.2) (State.reset.withFetchWord 16 w) with i := i }

/-- Bytes stored from an address on. -/
def poke (s : State) (a : Nat) (bs : List Byte) : State :=
  (bs.zipIdx).foldl (fun t p => t.putByte (a + p.2) p.1) s

/-- The state after one step. -/
def after (s : State) : State :=
  match step s with
  | .next t => t
  | .fault r => nomatch r
  | .refused _ => s

-- T41.1, T41.4, T41.5
theorem test_jp : (after (prep 0x1234 [])).pc = 0x234 := by decide +kernel
theorem test_call : let t := after (prep 0x2ABC []); t.pc = 0xABC ∧ t.liveStack = [0x202] := by decide +kernel
theorem test_call_full : let t := after { prep 0x2200 [] with sp := 16 }
    t.pc = 0x202 ∧ t.sp = 16 ∧ t.fcause = .stackOverflow ∧ t.finfo = 0x200 ∧
      t.report = some (.fault .stackOverflow 0x200) := by decide +kernel
-- T41.6, T41.7
theorem test_ret : let t := after { prep 0x00EE [] with sp := 2, stack := (Vector.replicate 16 0x456).set 0 0x202 }
    t.pc = 0x456 ∧ t.liveStack = [0x202] := by decide +kernel
theorem test_ret_empty : let t := after (prep 0x00EE [])
    t.pc = 0x202 ∧ t.fcause = .stackUnderflow ∧ t.finfo = 0x200 := by decide +kernel
-- T41.8 to T41.16
theorem test_sei : (after (prep 0x3A00 [])).pc = 0x204 ∧
    (after (prep 0x3AFF [(10, 0xFE)])).pc = 0x202 := by decide +kernel
theorem test_snei : (after (prep 0x4A00 [])).pc = 0x202 ∧
    (after (prep 0x4AFF [(10, 0xFE)])).pc = 0x204 := by decide +kernel
theorem test_ser : (after (prep 0x5AB0 [(10, 9), (11, 9)])).pc = 0x204 ∧
    (after (prep 0x5AB0 [(10, 9), (11, 8)])).pc = 0x202 := by decide +kernel
theorem test_sner : (after (prep 0x9AB0 [(10, 9), (11, 9)])).pc = 0x202 ∧
    (after (prep 0x9AB0 [(10, 9), (11, 8)])).pc = 0x204 := by decide +kernel
-- T42.1, S3, T42.5 to T42.9
theorem test_movi : (after (prep 0x6FAB [])).getV 15 = 0xAB := by decide +kernel
theorem test_addi_wraps : let t := after (prep 0x7002 [(0, 255)]); t.getV 0 = 1 ∧ t.getV 15 = 0 := by decide +kernel
theorem test_mov : let t := after (prep 0x8120 [(1, 1), (2, 9)]); t.getV 1 = 9 ∧ t.getV 2 = 9 := by decide +kernel
theorem test_or : let t := after (prep 0x8121 [(1, 0x0F), (2, 0xF0), (15, 7)])
    t.getV 1 = 0xFF ∧ t.getV 15 = 7 := by decide +kernel
theorem test_and : let t := after (prep 0x8122 [(1, 0x3C), (2, 0x0F), (15, 7)])
    t.getV 1 = 0x0C ∧ t.getV 15 = 7 := by decide +kernel
theorem test_xor : let t := after (prep 0x8123 [(1, 0xFF), (2, 0x0F), (15, 7)])
    t.getV 1 = 0xF0 ∧ t.getV 15 = 7 := by decide +kernel
-- S4, T42.19, T42.21
theorem test_add_carry : let t := after (prep 0x8014 [(0, 0xFF), (1, 1)])
    t.getV 0 = 0 ∧ t.getV 15 = 1 := by decide +kernel
theorem test_add_vf : (after (prep 0x8F14 [(15, 0xFF), (1, 2)])).getV 15 = 1 ∧
    (after (prep 0x81F4 [(1, 0xFF), (15, 1)])).getV 15 = 1 := by decide +kernel
-- S5, T42.12, T42.22
theorem test_sub : let t := after (prep 0x8015 [(0, 3), (1, 5)]); t.getV 0 = 254 ∧ t.getV 15 = 0 := by decide +kernel
theorem test_sub_equal : (after (prep 0x8125 [(1, 7), (2, 7), (15, 9)])).getV 15 = 0 ∧
    (after { prep 0x8125 [(1, 7), (2, 7)] with cfg.subEqFlag := true }).getV 15 = 1 := by decide +kernel
-- T42.24, T42.25
theorem test_subn : let t := after (prep 0x8127 [(1, 5), (2, 3)]); t.getV 1 = 0xFE ∧ t.getV 15 = 0 := by decide +kernel
theorem test_subn_vf : (after (prep 0x8F17 [(15, 3), (1, 5)])).getV 15 = 2 := by decide +kernel
-- T42.26, T42.30
theorem test_shr : let t := after (prep 0x8126 [(1, 0xFF), (2, 0xAA)]); t.getV 1 = 0x7F ∧ t.getV 15 = 1 := by decide +kernel
theorem test_shr_vy : let t := after { prep 0x8126 [(1, 5), (2, 0xAA)] with cfg.shiftSrc := .vy }
    t.getV 1 = 0x55 ∧ t.getV 15 = 0 := by decide +kernel
-- T42.32, T42.33
theorem test_shl : let t := after (prep 0x812E [(1, 0x40)]); t.getV 1 = 0x80 ∧ t.getV 15 = 0 := by decide +kernel
theorem test_shl_vy : let t := after { prep 0x812E [(1, 0x81), (2, 1)] with cfg.shiftSrc := .vy }
    t.getV 1 = 2 ∧ t.getV 15 = 0 := by decide +kernel
-- T43.1 to T43.3, T43.5, T43.6, T43.8
theorem test_seti : (after (prep 0xAFFF [])).i = 0xFFF := by decide +kernel
theorem test_iadd : let t := after (prep 0xF21E [(2, 1)] 0xFFF); t.i = 0x1000 ∧ t.fcause = .noFault := by decide +kernel
theorem test_iadd_wraps : (after (prep 0xF21E [(2, 1)] 0xFFFF)).i = 0 := by decide +kernel
theorem test_glyph : (after (prep 0xF429 [(4, 0x0A)])).i = 0x32 ∧
    (after { prep 0xF429 [(4, 0xFF)] with cfg.glyphBase := .font }).i = 0x54B := by decide +kernel
-- T43.9, T43.14
theorem test_bcd : let t := after (prep 0xF033 [(0, 0x9C)] 0x300)
    t.byteAt 0x300 = 1 ∧ t.byteAt 0x301 = 5 ∧ t.byteAt 0x302 = 6 ∧ t.i = 0x300 := by decide +kernel
theorem test_bcd_fault : let t := after (prep 0xF033 [(0, 0xEA)] 0xFFE)
    t.byteAt 0xFFE = 2 ∧ t.byteAt 0xFFF = 3 ∧ t.finfo = 0x1000 ∧ t.fcause = .addrRange := by decide +kernel
-- T43.15, T43.18
theorem test_stm : let t := after { prep 0xF255 [(0, 0x11), (1, 0x22), (2, 0x33), (3, 0x44)] 0x400 with cfg.ldstInc := true }
    t.byteAt 0x400 = 0x11 ∧ t.byteAt 0x402 = 0x33 ∧ t.byteAt 0x403 = 0 ∧ t.i = 0x403 := by decide +kernel
theorem test_stm_fault : let t := after (prep 0xFF55 [(0, 0xA0), (14, 0xAE), (15, 0xAF)] 0xFF1)
    t.byteAt 0xFF1 = 0xA0 ∧ t.byteAt 0xFFF = 0xAE ∧ t.finfo = 0x1000 := by decide +kernel
-- T43.21, T43.22
theorem test_ldm_font : let t := after (prep 0xFF65 [] 0x050)
    t.getV 0 = 0xF0 ∧ t.getV 5 = 0x20 ∧ t.getV 15 = 0xF0 ∧ t.i = 0x050 := by decide +kernel
theorem test_ldm_fault : let t := after (poke (prep 0xF265 [(2, 3)] 0xFFE) 0xFFE [0xAA, 0xBB])
    t.getV 0 = 0xAA ∧ t.getV 1 = 0xBB ∧ t.getV 2 = 3 ∧ t.finfo = 0x1000 := by decide +kernel
-- T44.1, T44.2, T44.4
theorem test_cls : let t := after { prep 0x00E0 [(15, 1)] with fb := Vector.replicate 32 (BitVec.allOnes 64) }
    t.fb = Vector.replicate 32 0 ∧ t.getV 15 = 1 := by decide +kernel
theorem test_drw_collision :
    let t := after (((poke (prep 0xD121 [] 0x300) 0x300 [0xF0]).setPix 1 0 true).setPix 5 0 true)
    t.fb = (Vector.replicate 32 0).set 0 0b101101 ∧ t.getV 15 = 1 := by decide +kernel
theorem test_drw_wraps :
    let t := after (poke (prep 0xD125 [(1, 62), (2, 30)] 0x300) 0x300 [0xFF, 0x81, 0xFF, 0x00, 0xC0])
    t.getV 15 = 0 ∧ t.fb = ((((Vector.replicate 32 0).set 30 0xC00000000000003F).set 31
      0x4000000000000020).set 0 0xC00000000000003F).set 2 0xC000000000000000 := by decide +kernel
-- T45.1, T45.3, T45.4, T45.6
theorem test_skp : (after { prep 0xE09E [(0, 5)] with keys := 0x20 }).pc = 0x204 ∧
    (after { prep 0xE09E [(0, 0x15)] with keys := 0x20 }).pc = 0x202 := by decide +kernel
theorem test_sknp : (after { prep 0xE0A1 [(0, 5)] with keys := 0x20 }).pc = 0x202 ∧
    (after { prep 0xE0A1 [(0, 0x15)] with keys := 0x20, cfg.keyOor := .low4 }).pc = 0x202 := by decide +kernel
-- T45.12, T45.7, T45.9, T45.10
theorem test_waitk : let t := after { prep 0xF30A [(3, 0x99)] with keys := 1 }
    t.blocked = true ∧ t.kx = 3 ∧ t.pc = 0x202 ∧ t.getV 3 = 0x99 := by decide +kernel
theorem test_poll : let t := after { State.reset with blocked := true, kx := 3, pc := 0x202, keys := 0x280 }
    t.getV 3 = 7 ∧ t.blocked = false ∧ t.pc = 0x202 ∧ t.report = some (.keyTaken 7) := by decide +kernel
theorem test_getdt : (after { prep 0xF507 [(5, 1)] with dt := 0x3C }).getV 5 = 0x3C := by decide +kernel
theorem test_setdt : (after (prep 0xF515 [(5, 0x3C)])).dt = 0x3C := by decide +kernel
theorem test_setst : let t := after (prep 0xF518 [(5, 2)]); t.st = 2 ∧ t.dt = 0 := by decide +kernel
-- T40.1, T40.4, T40.6, T40.7
theorem test_miss : let t := after State.reset
    t.report = some (.miss 0) ∧ t.pc = 0x202 ∧ t.missed = true ∧ t.fcause = .noFault := by decide +kernel
theorem test_fetch_fault : let t := after { State.reset with pc := 0xFFF }
    t.finfo = 0x1000 ∧ t.pc = 0xFFF ∧ t.fcause = .addrRange := by decide +kernel
theorem test_odd_pc : (after { poke State.reset 0x200 [0x60, 0x12, 0x34] with pc := 0x201 }).pc = 0x234 := by decide +kernel
-- T60.1, T60.4, T60.5, T70.1, T70.3, T70.4
theorem test_tick : let t := after { State.reset with dt := 2, st := 1, events := [.tick] }
    t.dt = 1 ∧ t.st = 0 ∧ (after { t with events := [.tick] }).st = 0 := by decide +kernel
theorem test_tick_paused : (after { State.reset with dt := 4, paused := true, events := [.tick] }).dt = 4 := by decide +kernel
theorem test_setkey_faulted :
    (after { State.reset with fcause := .addrRange, events := [.setKey 2 true] }).keys = 4 := by decide +kernel
theorem test_reset_image : let t := after { State.reset with keys := 8, dt := 9, events := [.reset [0x12, 0x34]] }
    t.byteAt 0x200 = 0x12 ∧ t.byteAt 0x201 = 0x34 ∧ t.byteAt 0x050 = 0xF0 ∧ t.byteAt 0x09F = 0x80 ∧
      t.byteAt 0x0A0 = 0 ∧ t.keys = 8 ∧ t.dt = 0 ∧ t.pc = 0x200 := by decide +kernel
theorem test_reset_too_large :
    let t := after { State.reset with events := [.reset (List.replicate 3585 0xAB)] }
    t.fcause = .loadSize ∧ t.mem = [] ∧ (after t).report = some .halted := by decide +kernel

/-! ### Witnesses: states and operands that meet the hypotheses of the statements -/

/-- A state with `n` live entries, all `0x202`. -/
def withDepth (n : Fin 17) : State := { State.reset with sp := n, stack := Vector.replicate 16 0x202 }

/-- The reset state runs. -/
theorem running_reset : State.reset.Running := ⟨rfl, rfl, rfl, rfl⟩

theorem witness_EncodeOfDecodeIsIdentity : decode 0x1234 = some (.jp 0x234) := by decide +kernel
theorem witness_SourceLinesNameInstructions : (Source.mk .drw [15, 15, 15]).toInstr = some (.drw 15 15 15) ∧
    (Source.mk .drw [15, 15, 15]).wellFormed = true ∧ (Source.mk .shl [15]).wellFormed = true := by decide
theorem witness_JumpSetsPc : exec (.jp 0xFFF) State.reset = .next (State.reset.jump 0xFFF) := rfl
theorem witness_CallPushesReturnAddress : (withDepth 0).sp.val < 16 ∧ (withDepth 15).sp.val < 16 ∧
    (withDepth 16).sp.val = 16 := by decide
theorem witness_ReturnPopsIntoPc : 0 < (withDepth 1).sp.val ∧ 0 < (withDepth 16).sp.val ∧
    (withDepth 0).sp.val = 0 := by decide
theorem witness_ReturnPopsIntoPc_bounded : (withDepth 16).PcBounded :=
  ⟨fun _ => by decide, fun a ha => by
    have : a = 0x202 := List.eq_of_mem_replicate
      (show a ∈ List.replicate 16 (0x202 : Word) from by simpa [State.liveStack, withDepth] using ha)
    subst this; decide⟩
theorem witness_ReturnUndoesCall : (withDepth 15).sp.val < 16 ∧
    ∃ t, exec (.call 0x300) (withDepth 15) = .next t ∧
      ({ t with stack := t.stack, pc := 0x456 } : State).liveStack = t.liveStack := ⟨by decide, _, rfl, rfl⟩
/-- The subroutine has itself called and returned: a dead cell differs, the live entries do not. -/
theorem witness_ReturnUndoesCall_nested : let t := after (prep 0x2300 [])
    let u : State := { t with stack := t.stack.set 1 0x456 }
    u.liveStack = t.liveStack ∧ u.stack ≠ t.stack := by decide +kernel
theorem witness_ShiftsWriteBitShiftedOut :
    (1 : Byte) = (if (prep 0 [(1, 1)]).cfg.shiftSrc = .vx then (prep 0 [(1, 1)]).getV 1 else (prep 0 [(1, 1)]).getV 2) ∧
    (0 : Byte) = (if ({ prep 0 [(1, 1)] with cfg.shiftSrc := .vy } : State).cfg.shiftSrc = .vx then 1
      else (prep 0 [(1, 1)]).getV 2) ∧ (1 : Nibble) ≠ vf := by decide +kernel
theorem witness_OnlyNamedInstructionsWriteVF : (∃ t, exec (.movi 0 1) State.reset = .next t) ∧
    flagWriter (.movi 0 1) = false ∧ namesVF (.movi 0 1) = false ∧ namesVF (.movi 15 1) = true ∧
    (∃ t, exec (.add 1 15) State.reset = .next t) ∧ (1 : Nibble) ≠ vf := ⟨⟨_, rfl⟩, rfl, rfl, rfl, ⟨_, rfl⟩, by decide⟩
theorem witness_BcdStoresDigits : State.reset.memWf = true ∧
    ({ State.reset with i := 0xFFD } : State).effAddr 2 = 4095 ∧
    ({ State.reset with i := 0xFFE } : State).effAddr 2 = 4096 ∧
    ({ State.reset with i := 0xFFE } : State).effAddr 1 < 4096 := by decide +kernel
theorem witness_StoreRegistersToMemory : ({ State.reset with i := 0xFF0 } : State).memWf = true ∧
    ({ State.reset with i := 0xFF0 } : State).effAddr (15 : Nibble).toNat = 4095 := by decide +kernel
theorem witness_LoadRegistersFromMemory :
    ({ State.reset with i := 0xFFF } : State).effAddr (0 : Nibble).toNat < 4096 := by decide +kernel
theorem witness_FaultingStoreKeepsEarlierBytes : ({ State.reset with i := 0xFF1 } : State).memWf = true ∧
    ({ State.reset with i := 0xFF1 } : State).effAddr (15 : Nibble).toNat = 4096 := by decide +kernel
theorem witness_FaultingLoadKeepsEarlierRegisters :
    4096 ≤ ({ State.reset with i := 0x1000 } : State).effAddr (0 : Nibble).toNat := by decide +kernel
theorem witness_DrawTogglesSpriteCells :
    ({ State.reset with i := 0xFF1 } : State).i.toNat + (15 : Nibble).toNat = 4096 ∧
    ¬ ({ State.reset with i := 0x1000 } : State).i.toNat + (1 : Nibble).toNat ≤ 4096 ∧
    ({ State.reset with i := 0x050 } : State).covered 0 0 0x050 1 0 0 ∧
    ¬ ({ State.reset with i := 0x050 } : State).covered 0 0 0x050 1 0 1 := by
  refine ⟨by decide, by decide, ⟨0, by decide, 0, by decide, by decide +kernel, by decide, by decide⟩, ?_⟩
  rintro ⟨r, hr, c, _, _, _, hrow⟩
  obtain rfl : r = 0 := by omega
  exact absurd hrow (by decide)
theorem witness_DrawReportsCollision : ({ State.reset with i := 0x050 } : State).i.toNat + (5 : Nibble).toNat ≤ 4096 ∧
    (after (poke (prep 0xD121 [] 0x300) 0x300 [0xF0])).getV vf = 0 := by decide +kernel
theorem witness_DrawTwiceErases_noRows : ¬ ({ State.reset with i := 0xFFFF } : State).i.toNat + (0 : Nibble).toNat ≤ 4096 ∧
    ∃ t, exec (.drw 1 2 0) { State.reset with i := 0xFFFF } = .next t ∧ t.getV 1 = State.reset.getV 1 ∧
      t.getV 2 = State.reset.getV 2 := ⟨by decide, _, rfl, by decide +kernel, by decide +kernel⟩
theorem witness_DrawTwiceErases : ({ State.reset with i := 0xFFF } : State).i.toNat + (1 : Nibble).toNat ≤ 4096 ∧
    (after (poke (prep 0xD121 [] 0x300) 0x300 [0xF0])).getV 1 = (prep 0xD121 [] 0x300).getV 1 := by decide +kernel
theorem witness_FaultingDrawKeepsEarlierRows :
    4096 < ({ State.reset with i := 0xFFE } : State).i.toNat + (3 : Nibble).toNat ∧ (3 : Nibble) ≠ 0 ∧
    4096 < ({ State.reset with i := 0x1000 } : State).i.toNat + (1 : Nibble).toNat := by decide
theorem witness_KeySkips :
    true = (if (0x15 : Byte).toNat ≤ 15 ∨ ({ defaultParams with keyOor := .low4 } : Config.Params).keyOor = .low4
      then (0x20 : BitVec 16).getLsbD ((0x15 : Byte).toNat % 16) else false) ∧
    false = (if (0x15 : Byte).toNat ≤ 15 ∨ defaultParams.keyOor = .low4 then true else false) := by decide
theorem witness_BlockedStepPollsKeys : ({ State.reset with blocked := true } : State).nextEvent = .step ∧
    (∀ k : Nibble, ({ State.reset with blocked := true } : State).key k = false) ∧
    ({ State.reset with blocked := true, keys := 0x8000 } : State).key 15 = true ∧
    ∀ j : Nibble, j < 15 → ({ State.reset with blocked := true, keys := 0x8000 } : State).key j = false := by decide +kernel
theorem witness_StepRunsTheDecodedInstruction :
    ({ poke State.reset 0xFFE [0x6A, 0x2F] with pc := 0xFFE } : State).Running ∧
    (0xFFE : Word).toNat + 1 < 4096 ∧ decode (wordOf ((poke State.reset 0xFFE [0x6A, 0x2F]).byteAt 0xFFE)
      ((poke State.reset 0xFFE [0x6A, 0x2F]).byteAt 0xFFF)) = some (.movi 10 0x2F) :=
  ⟨⟨rfl, rfl, rfl, rfl⟩, by decide, by decide +kernel⟩
theorem witness_FetchFaultLeavesPc : ({ State.reset with pc := 0xFFF } : State).Running ∧
    4095 ≤ (0xFFF : Word).toNat ∧ ({ State.reset with pc := 0xFFFF } : State).Running ∧
    State.reset.pc.toNat + 1 < 4096 := ⟨⟨rfl, rfl, rfl, rfl⟩, by decide, ⟨rfl, rfl, rfl, rfl⟩, by decide⟩
theorem witness_DecodeMissOnlyAdvances : State.reset.Running ∧ State.reset.pc.toNat + 1 < 4096 ∧
    (0 : Word) = wordOf (State.reset.byteAt 0x200) (State.reset.byteAt 0x201) ∧ decode 0 = none :=
  ⟨running_reset, by decide, by decide +kernel, by decide +kernel⟩
theorem witness_FetchIsBigEndian : ({ State.reset with pc := 0xFFE } : State).pc.toNat + 1 < 4096 ∧
    ({ State.reset with pc := 0xFFF } : State).pc.toNat = 4095 ∧
    4096 ≤ ({ State.reset with pc := 0x1000 } : State).pc.toNat := by decide
theorem witness_StoredWordIsFetched : State.reset.memWf = true ∧
    ({ State.reset with pc := 0xFFE } : State).pc.toNat + 1 < 4096 := by decide +kernel
theorem witness_LatchesHoldTheStepBack :
    ({ State.reset with fcause := .loadSize, paused := true } : State).nextEvent = .step ∧
    ({ State.reset with fcause := .loadSize, paused := true } : State).fcause ≠ .noFault ∧
    ({ State.reset with paused := true, blocked := true } : State).fcause = .noFault := by decide
theorem witness_BlockedChangesOnlyByWaitAndPoll : (prep 0xF30A []).blocked = false ∧
    (after (prep 0xF30A [])).blocked = true ∧
    (after { State.reset with blocked := true, keys := 1 }).blocked = false ∧
    (after { State.reset with blocked := true, events := [.reset []] }).blocked = false := by decide +kernel
theorem witness_TickCountsDown : ({ State.reset with events := [.tick] } : State).nextEvent = .tick ∧
    State.reset.fcause = .noFault ∧ ({ State.reset with paused := true } : State).paused = true := by decide
theorem witness_TimersChangeOnlyByTickAndSet : (after (prep 0xF515 [(5, 1)])).dt ≠ (prep 0xF515 [(5, 1)]).dt ∧
    (prep 0xF515 [(5, 1)]).nextEvent ≠ .tick ∧ (after (prep 0xF518 [(5, 1)])).st ≠ (prep 0xF518 [(5, 1)]).st ∧
    (∀ x, Instr.movi 0 1 ≠ .setdt x) := by decide +kernel
theorem witness_SetKeyWritesOneKey :
    ({ State.reset with events := [.setKey 15 true] } : State).nextEvent = .setKey 15 true := rfl
theorem witness_PauseAndResume : ({ State.reset with events := [.pause] } : State).nextEvent = .pause ∧
    ({ State.reset with events := [.resume] } : State).nextEvent = .resume := ⟨rfl, rfl⟩
theorem witness_ResetLoadsImage :
    ({ State.reset with events := [.reset [0x12]] } : State).nextEvent = .reset [0x12] ∧
    (List.replicate 3584 (0xAB : Byte)).length ≤ 3584 := ⟨rfl, by decide +kernel⟩
theorem witness_OversizedImageIsRejected : 3584 < (List.replicate 3585 (0xAB : Byte)).length := by decide +kernel
theorem witness_FaultFreezesTheCore : ∃ t, ({ State.reset with fcause := .addrRange } : State).fcause ≠ .noFault ∧
    step { State.reset with fcause := .addrRange } = .next t := ⟨_, by decide, rfl⟩
theorem witness_KeysWrittenOnlyBySetKey : ∃ t, step { State.reset with events := [.tick] } = .next t := ⟨_, rfl⟩
theorem witness_InstructionsWriteOnlyTheirState : ∃ t, exec (.movi 0 1) State.reset = .next t ∧
    (∀ x, Instr.movi 0 1 ≠ .bcd x ∧ Instr.movi 0 1 ≠ .stm x) ∧ (∀ x, Instr.movi 0 1 ≠ .waitk x) :=
  ⟨_, rfl, fun _ => ⟨by simp, by simp⟩, fun _ => by simp⟩
theorem witness_OnlyNamedInstructionsFault : State.reset.fcause = .noFault ∧
    (after (prep 0x00EE [])).fcause ≠ .noFault ∧ (after { prep 0x2200 [] with sp := 16 }).fcause ≠ .noFault ∧
    (after (prep 0xF055 [] 0x1000)).fcause ≠ .noFault := by decide +kernel
theorem witness_OnlyNamedInstructionsFault_others :
    (∃ t, exec (.drw 1 2 0) { State.reset with i := 0xFFFF } = .next t ∧ t.fcause = .noFault) ∧
    Instr.drw 1 2 0 ≠ .ret ∧ (∀ a, Instr.drw 1 2 0 ≠ .call a) ∧
    (∀ x y n, n ≠ 0 → Instr.drw 1 2 0 ≠ .drw x y n) ∧
    ∀ x, Instr.drw 1 2 0 ≠ .bcd x ∧ Instr.drw 1 2 0 ≠ .stm x ∧ Instr.drw 1 2 0 ≠ .ldm x := by
  refine ⟨⟨_, rfl, rfl⟩, by simp, by simp, ?_, by simp⟩
  rintro x y n hn ⟨⟩
  exact hn rfl
theorem witness_StepKeepsMemoryCanonical : ∃ t, State.reset.memWf = true ∧
    step { State.reset with events := [.reset [0x12]] } = .next t := ⟨_, by decide +kernel, rfl⟩
theorem witness_StepKeepsPcBounded : State.reset.PcBounded :=
  ⟨fun _ => by decide, fun a ha => by simp [State.liveStack, State.reset] at ha⟩
theorem witness_StepKeepsFaultLatchLegal : State.reset.latchWf := rfl

end Sys2Proof.Tests
end

section
/-! The key scan `AnyPressed` (spec/40_cycle.md R127). -/

namespace Sys2Proof.Machine

/-- The codes below 16 that the scan runs over are the values of the 4-bit key codes. -/
theorem forall_nibble_toNat_iff {p : Nat → Prop} :
    (∀ k : Nibble, p k.toNat) ↔ ∀ n, n < 16 → p n := by
  constructor
  · intro h n hn
    have hcode : (BitVec.ofNat 4 n).toNat = n := Nat.mod_eq_of_lt hn
    exact hcode ▸ h (BitVec.ofNat 4 n)
  · exact fun h k => h k.toNat k.isLt

/-- The scan finds nothing exactly when no key is held (R127). -/
theorem State.anyPressed_eq_none_iff (s : State) :
    s.anyPressed = none ↔ ∀ k : Nibble, s.key k = false := by
  simp [State.anyPressed, State.key,
    forall_nibble_toNat_iff (p := fun n => s.keys.getLsbD n = false)]

/-- Turning the number found into a key code loses nothing, as it is below 16. -/
theorem State.anyPressed_eq_some_iff_find? (s : State) (k : Nibble) :
    s.anyPressed = some k ↔
      (List.range 16).find? (fun n => s.keys.getLsbD n) = some k.toNat := by
  unfold State.anyPressed
  constructor
  · intro h
    obtain ⟨n, hfind, rfl⟩ := Option.map_eq_some_iff.mp h
    have hn : n < 16 := List.mem_range.mp (List.mem_of_find?_eq_some hfind)
    rw [hfind, BitVec.toNat_ofNat, Nat.mod_eq_of_lt hn]
  · intro h
    simp [h]

/-- The scan runs upwards, so the code it finds is the smallest held one (R127). -/
theorem State.anyPressed_eq_some_iff (s : State) (k : Nibble) :
    s.anyPressed = some k ↔ s.key k = true ∧ ∀ j : Nibble, j < k → s.key j = false := by
  have hbelow : (∀ j : Nibble, j < k → s.key j = false) ↔
      ∀ n, n < k.toNat → s.keys.getLsbD n = false :=
    forall_nibble_toNat_iff (p := fun n => n < k.toNat → s.keys.getLsbD n = false) |>.trans
      ⟨fun h n hn => h n (hn.trans k.isLt) hn, fun h n _ => h n⟩
  rw [s.anyPressed_eq_some_iff_find?, hbelow, List.find?_range_eq_some]
  simp [State.key, k.isLt]

/-- Settles O37: the two answers of the scan. -/
theorem anyPressedIsLowestHeldKey : Obligations.AnyPressedIsLowestHeldKey :=
  fun s => ⟨s.anyPressed_eq_none_iff, s.anyPressed_eq_some_iff⟩

end Sys2Proof.Machine
end

section
/-! The decoder on the word of an instruction (spec/30_encoding.md R100). -/

namespace Sys2Proof

/-- A word that two rows select agrees, on the bits that both masks keep, with both patterns. -/
theorem Row.patterns_agree_of_selects {r q : Row} {w : Word}
    (hr : r.selects w = true) (hq : q.selects w = true) :
    r.pattern &&& q.mask = q.pattern &&& r.mask := by
  rw [Row.selects, beq_iff_eq] at hr hq
  rw [← hr, ← hq, BitVec.and_assoc, BitVec.and_assoc, BitVec.and_comm r.mask]

/-- Any two rows of the map differ on a bit that both masks keep. -/
theorem opcodeMap_patterns_differ :
    opcodeMap.Pairwise fun r q => r.pattern &&& q.mask ≠ q.pattern &&& r.mask := by
  decide +kernel

/-- As the rows are disjoint, the place of a row in the map does not matter: a word that selects it decodes by it. -/
theorem decode_of_selects {r : Row} {w : Word} (hmem : r ∈ opcodeMap) (hsel : r.selects w = true) :
    decode w = some (r.build w) := by
  obtain ⟨before, after, hsplit⟩ := List.append_of_mem hmem
  have hdiffer := opcodeMap_patterns_differ
  rw [hsplit, List.pairwise_append] at hdiffer
  obtain ⟨-, -, hbefore⟩ := hdiffer
  have hskip : ∀ q ∈ before, q.selects w = false := fun q hq =>
    Bool.eq_false_iff.mpr fun hqsel =>
      hbefore q hq r List.mem_cons_self (Row.patterns_agree_of_selects hqsel hsel)
  have hfind : opcodeMap.find? (fun q => q.selects w) = some r :=
    List.find?_eq_some_iff_append.mpr
      ⟨hsel, before, after, hsplit, fun q hq => by simp [hskip q hq]⟩
  rw [decode, hfind, Option.map_some]

/-- The word of an instruction decodes to the instruction: its own row selects it and builds it back. -/
theorem decode_encode (i : Instr) : decode (encode i) = some i := by
  obtain ⟨r, hmem, -, hsel, hbuild⟩ := Laws.MapRow.all i
  rw [decode_of_selects hmem hsel, hbuild]

end Sys2Proof
end

section
/-! Jumps and skips (spec/41_control.md R141, R143, R144, R147). -/

namespace Sys2Proof.Machine

/-- JP jumps (R141). -/
theorem exec_jp (nnn : Addr12) (s : State) : exec (.jp nnn) s = .next (s.jump nnn) := rfl

/-- SEI skips on equality (R143). -/
theorem exec_sei (x : Nibble) (kk : Byte) (s : State) :
    exec (.sei x kk) s = .next (s.skipIf (decide (s.getV x = kk))) := rfl

/-- SNEI skips on inequality (R144). -/
theorem exec_snei (x : Nibble) (kk : Byte) (s : State) :
    exec (.snei x kk) s = .next (s.skipIf (decide (s.getV x ≠ kk))) := rfl

/-- A skip writes `pc` alone, whether or not it is taken (R147). -/
theorem State.skipIf_eq (s : State) (c : Bool) :
    s.skipIf c = { s with pc := if c then s.pc + 2 else s.pc } := by
  cases c
  case false => rfl
  case true => rfl

/-- From `pc = 0xFFF` on the fetch faults, as the second byte of the word lies past memory (R64, R121). -/
theorem State.fetch_error_of_pc_ge {s : State} (h : 4095 ≤ s.pc.toNat) :
    s.fetch = .error (s.raise .addrRange (max s.pc.toNat 4096)) := by
  rcases s.fetch_cases with ⟨hlt, -⟩ | ⟨-, hfault⟩
  · omega
  · exact hfault

/-- Settles O7: the word, the effect, and the fault of the fetch after a jump to `0xFFF`. -/
theorem jumpSetsPc : Obligations.JumpSetsPc := by
  refine ⟨fun nnn => decode_encode (.jp nnn), exec_jp, fun s t ht => ?_⟩
  rw [exec_jp] at ht
  cases ht
  have hpc : 4095 ≤ (s.jump 0xFFF).pc.toNat := by rw [State.jump_pc]; decide
  exact ⟨_, State.fetch_error_of_pc_ge hpc, State.raise_fcause ..⟩

/-- Settles O11: the words, and the two skips with the condition in either sense. -/
theorem immediateSkips : Obligations.ImmediateSkips := by
  refine ⟨fun x kk => ⟨decode_encode (.sei x kk), decode_encode (.snei x kk)⟩,
    fun x kk s => ⟨?_, ?_⟩⟩
  · rw [exec_sei, State.skipIf_eq]
    simp only [decide_eq_true_eq]
  · rw [exec_snei, State.skipIf_eq]
    simp only [decide_eq_true_eq, ne_eq, ite_not]

end Sys2Proof.Machine
end

section
/-! Register load, and the arithmetic and logic that write no flag (spec/42_alu.md R162 to R167). -/

namespace Sys2Proof.Machine

/-- MOVI writes the immediate (R162). -/
theorem exec_movi (x : Nibble) (kk : Byte) (s : State) :
    exec (.movi x kk) s = .next (s.setV x kk) := rfl

/-- ADDI writes the sum (R163). -/
theorem exec_addi (x : Nibble) (kk : Byte) (s : State) :
    exec (.addi x kk) s = .next (s.setV x (addResult (s.getV x) kk)) := rfl

/-- MOV writes a copy (R164). -/
theorem exec_mov (x y : Nibble) (s : State) :
    exec (.mov x y) s = .next (s.setV x (s.getV y)) := rfl

/-- OR writes the disjunction (R165). -/
theorem exec_or (x y : Nibble) (s : State) :
    exec (.or x y) s = .next (s.setV x (s.getV x ||| s.getV y)) := rfl

/-- AND writes the conjunction (R166). -/
theorem exec_and (x y : Nibble) (s : State) :
    exec (.and x y) s = .next (s.setV x (s.getV x &&& s.getV y)) := rfl

/-- XOR writes the exclusive disjunction (R167). -/
theorem exec_xor (x y : Nibble) (s : State) :
    exec (.xor x y) s = .next (s.setV x (s.getV x ^^^ s.getV y)) := rfl

/-- A register write touches the register file alone. -/
theorem State.setV_eq (s : State) (x : Nibble) (b : Byte) :
    s.setV x b = { s with v := (s.setV x b).v } := rfl

/-- The register written reads as the byte written. -/
theorem State.getV_setV_self (s : State) (x : Nibble) (b : Byte) : (s.setV x b).getV x = b := by
  rw [State.getV_setV, if_pos rfl]

/-- Every other register reads as before. -/
theorem State.getV_setV_of_ne (s : State) {x r : Nibble} (h : r ≠ x) (b : Byte) :
    (s.setV x b).getV r = s.getV r := by
  rw [State.getV_setV, if_neg h]

/-- Writing back the byte that a register holds changes nothing. -/
theorem State.setV_getV (s : State) (x : Nibble) : s.setV x (s.getV x) = s := by
  have hv : (s.setV x (s.getV x)).v = s.v := Vector.set_getElem_self x.isLt
  rw [State.setV_eq, hv]

/-- The sum as a number: modulo 256 (R174). -/
theorem addResult_toNat (a b : Byte) : (addResult a b).toNat = (a.toNat + b.toNat) % 256 := by
  rw [addResult, BitVec.toNat_ofNat, Nat.mod_mod]

/-- Adding 0 gives the byte back. -/
theorem addResult_zero (a : Byte) : addResult a 0 = a := by
  apply BitVec.eq_of_toNat_eq
  rw [addResult_toNat]
  exact Nat.mod_eq_of_lt a.isLt

/-- Settles O13: the words, the two writes, and MOV of a register onto itself. -/
theorem loadAndCopyRegister : Obligations.LoadAndCopyRegister :=
  ⟨fun x kk => decode_encode (.movi x kk),
    fun x y => decode_encode (.mov x y),
    fun x kk s => ⟨_, exec_movi x kk s, s.setV_eq x kk, fun r => s.getV_setV x r kk⟩,
    fun x y s => ⟨_, exec_mov x y s, s.setV_eq x _, fun r => s.getV_setV x r _⟩,
    fun x s => by rw [exec_mov, s.setV_getV]⟩

/-- Settles O14: the word, the sum with its frame, and the immediate 0. -/
theorem addImmediateWraps : Obligations.AddImmediateWraps := by
  refine ⟨fun x kk => decode_encode (.addi x kk), fun x kk s => ?_, fun x s => ?_⟩
  · refine ⟨_, exec_addi x kk s, s.setV_eq x _, ?_, fun r hr => s.getV_setV_of_ne hr _⟩
    rw [s.getV_setV_self, addResult_toNat]
  · rw [exec_addi, addResult_zero, s.setV_getV]

/-- Settles O15: the words, then for each operation its frame and its bits; XOR of a byte with itself is 0. -/
theorem bitwiseOperations : Obligations.BitwiseOperations := by
  refine ⟨fun x y => ⟨decode_encode (.or x y), decode_encode (.and x y), decode_encode (.xor x y)⟩,
    fun x y s => ⟨?_, ?_, ?_⟩⟩
  · refine ⟨_, exec_or x y s, s.setV_eq x _, fun r hr => s.getV_setV_of_ne hr _, fun k => ?_⟩
    rw [s.getV_setV_self, BitVec.getLsbD_or]
  · refine ⟨_, exec_and x y s, s.setV_eq x _, fun r hr => s.getV_setV_of_ne hr _, fun k => ?_⟩
    rw [s.getV_setV_self, BitVec.getLsbD_and]
  · refine ⟨_, exec_xor x y s, s.setV_eq x _, fun r hr => s.getV_setV_of_ne hr _, fun k => ?_, ?_⟩
    · rw [s.getV_setV_self, BitVec.getLsbD_xor]
    · rintro rfl
      rw [s.getV_setV_self]
      exact BitVec.xor_self

end Sys2Proof.Machine
end

section
/-! Index register instructions (spec/43_index_memory.md). -/

namespace Sys2Proof.Machine

/-- SETI writes the zero-extended address to `I` (R190). -/
theorem exec_seti (nnn : Addr12) (s : State) :
    exec (.seti nnn) s = .next { s with i := nnn.setWidth 16 } := rfl

/-- Settles O20: the word, and the load with its frame; the 12-bit address bounds what zero extension keeps. -/
theorem indexLoad : Obligations.IndexLoad := by
  refine ⟨fun nnn => decode_encode (.seti nnn), fun nnn s => ?_⟩
  have hvalue : (nnn.setWidth 16).toNat = nnn.toNat := BitVec.toNat_setWidth_of_le (by decide)
  have hbound : nnn.toNat ≤ 4095 := Nat.le_of_lt_succ nnn.isLt
  exact ⟨_, exec_seti nnn s, rfl, rfl, hvalue, hvalue.trans_le hbound⟩

end Sys2Proof.Machine
end

section
/-! Pixels as framebuffer cells, and CLS (spec/44_display.md R210, R211). -/

namespace Sys2Proof.Machine

open Sys2Proof.Config

/-- Coordinates wrap: wrapping them first names the same pixel (R210). -/
theorem State.pix_mod (s : State) (x y : Nat) : s.pix (x % fbW) (y % fbH) = s.pix x y := by
  simp only [State.pix, pixCol, pixRow, Nat.mod_mod]

/-- A column below 64 and a row are read back from the row-major index of their cell (R33). -/
theorem State.fbCell_rowMajor (s : State) {col : Nat} (hcol : col < fbW) (row : Nat) :
    s.fbCell (col + fbW * row) = s.pix col row := by
  have hdiv : (col + fbW * row) / fbW = row := by
    rw [Nat.add_mul_div_left _ _ (Nat.zero_lt_of_lt hcol), Nat.div_eq_of_lt hcol, Nat.zero_add]
  rw [State.fbCell, Nat.add_mul_mod_self_left, Nat.mod_eq_of_lt hcol, hdiv]

/-- Among the 2048 cells, the one at the wrapped index is the one in the wrapped column and row. -/
theorem eq_rowMajor_iff {k : Nat} (hk : k < 2048) (x y : Nat) :
    k = x % 64 + 64 * (y % 32) ↔ pixCol (k % fbW) = pixCol x ∧ pixRow (k / fbW) = pixRow y := by
  simp only [pixCol, pixRow, fbW, fbH]
  omega

/-- A pixel write touches the framebuffer alone. -/
theorem State.setPix_eq (s : State) (x y : Nat) (b : Bool) :
    s.setPix x y b = { s with fb := (s.setPix x y b).fb } := rfl

/-- A cell after `setPixel`: the cell at the wrapped index holds the value written, every other one its own (R212). -/
theorem State.fbCell_setPix (s : State) (x y : Nat) (b : Bool) {k : Nat} (hk : k < 2048) :
    (s.setPix x y b).fbCell k = if k = x % 64 + 64 * (y % 32) then b else s.fbCell k := by
  simp only [State.fbCell, State.pix_setPix, eq_rowMajor_iff hk]

/-- Settles O28: the cell that a pixel names, then the frame and the cells of `setPixel`. -/
theorem pixelsAreWrappedCells : Obligations.PixelsAreWrappedCells := by
  refine ⟨fun s x y => ?_, fun s x y b => ⟨s.setPix_eq x y b, fun k hk => s.fbCell_setPix x y b hk⟩⟩
  have hcol : x % fbW < fbW := Nat.mod_lt _ (by decide)
  calc s.pix x y = s.pix (x % fbW) (y % fbH) := (s.pix_mod x y).symm
    _ = s.fbCell (x % fbW + fbW * (y % fbH)) := (s.fbCell_rowMajor hcol _).symm

/-- CLS clears the framebuffer (R211). -/
theorem exec_cls (s : State) : exec .cls s = .next s.clearFb := rfl

/-- Clearing touches the framebuffer alone. -/
theorem State.clearFb_eq (s : State) : s.clearFb = { s with fb := s.clearFb.fb } := rfl

/-- Settles O29: the word, the frame, and every pixel off. -/
theorem clearScreenClearsEveryCell : Obligations.ClearScreenClearsEveryCell :=
  ⟨decode_encode .cls, fun s => ⟨_, exec_cls s, s.clearFb_eq, s.pix_clearFb⟩⟩

end Sys2Proof.Machine
end

section
/-! The decoder on every word: the nibbles of a word decide which row it selects (spec/30_encoding.md R92, R100,
R108). -/

namespace Sys2Proof

/-- Settles O2: the two bytes of an instruction make its word again. -/
theorem decodeOfEncodeIsIdentity : Obligations.DecodeOfEncodeIsIdentity := by
  refine fun i => ⟨decode_encode i, fun rest => ?_⟩
  simp only [encodeBytes, List.cons_append, List.nil_append, decodeBytes, wordOf_bytes, decode_encode]

/-- Settles O4: two rows that one word selects would have patterns that agree. -/
theorem opcodeRowsPairwiseDisjoint : Obligations.OpcodeRowsPairwiseDisjoint :=
  opcodeMap_patterns_differ.imp fun hdiffer _ ⟨hr, hq⟩ =>
    hdiffer (Row.patterns_agree_of_selects hr hq)

/-- Settles O1, by running the decoder on the words. -/
theorem vectorWordsDecode : Obligations.VectorWordsDecode := by
  unfold Obligations.VectorWordsDecode
  decide +kernel

/-- A pair of fields makes a word when the fields are cut from it. -/
theorem append_eq_iff {m n : Nat} {a : BitVec m} {b : BitVec n} {w : BitVec (m + n)} :
    a ++ b = w ↔ a = w.extractLsb' n m ∧ b = w.extractLsb' 0 n := by
  constructor
  · rintro rfl
    exact ⟨BitVec.extractLsb'_append_eq_left.symm, BitVec.extractLsb'_append_eq_right.symm⟩
  · rintro ⟨rfl, rfl⟩
    rw [BitVec.extractLsb'_append_extractLsb'_eq_extractLsb' (Nat.zero_add n).symm]
    exact BitVec.extractLsb'_eq_self

/-- Two nibbles make a byte when they are cut from it. -/
theorem nibbles_eq_byte_iff {y n : Nibble} {kk : Byte} :
    y ++ n = kk ↔ y = kk.extractLsb' 4 4 ∧ n = kk.extractLsb' 0 4 := append_eq_iff

/-- Three nibbles make an address when they are cut from it. -/
theorem nibbles_eq_addr_iff {x y n : Nibble} {nnn : Addr12} :
    x ++ (y ++ n) = nnn ↔
      x = nnn.extractLsb' 8 4 ∧ y = nnn.extractLsb' 4 4 ∧ n = nnn.extractLsb' 0 4 := by
  refine append_eq_iff.trans (and_congr_right' (nibbles_eq_byte_iff.trans ?_))
  rw [BitVec.extractLsb'_extractLsb'_of_le (by decide), BitVec.extractLsb'_extractLsb'_of_le (by decide)]

/-- Four nibbles make a word when they are cut from it. -/
theorem encXY_eq_iff {op x y n : Nibble} {w : Word} :
    encXY op x y n = w ↔
      op = w.extractLsb' 12 4 ∧ x = w.extractLsb' 8 4 ∧ y = w.extractLsb' 4 4 ∧ n = w.extractLsb' 0 4 := by
  refine append_eq_iff.trans (and_congr_right' (nibbles_eq_addr_iff.trans ?_))
  rw [BitVec.extractLsb'_extractLsb'_of_le (by decide), BitVec.extractLsb'_extractLsb'_of_le (by decide),
    BitVec.extractLsb'_extractLsb'_of_le (by decide)]

/-- Every word is four nibbles. -/
theorem exists_eq_encXY (w : Word) : ∃ op x y n : Nibble, w = encXY op x y n :=
  ⟨_, _, _, _, (encXY_eq_iff.mpr ⟨rfl, rfl, rfl, rfl⟩).symm⟩

/-- The leading nibble of a word, bits 15..12. -/
theorem op_encXY (op x y n : Nibble) : (encXY op x y n).extractLsb' 12 4 = op :=
  BitVec.extractLsb'_append_eq_left

/-- Field `kk` is the last two nibbles. -/
@[simp] theorem fieldKK_encXY (op x y n : Nibble) : fieldKK (encXY op x y n) = y ++ n :=
  fieldKK_encXK op x (y ++ n)

/-- Field `nnn` is the last three nibbles. -/
theorem fieldNNN_encXY (op x y n : Nibble) : fieldNNN (encXY op x y n) = x ++ (y ++ n) :=
  fieldNNN_encA op (x ++ (y ++ n))

/-- The same, for a given address. -/
theorem fieldNNN_encXY_eq_iff {op x y n : Nibble} {nnn : Addr12} :
    fieldNNN (encXY op x y n) = nnn ↔
      x = nnn.extractLsb' 8 4 ∧ y = nnn.extractLsb' 4 4 ∧ n = nnn.extractLsb' 0 4 :=
  fieldNNN_encXY op x y n ▸ nibbles_eq_addr_iff

/-- What the four masks of the map keep of a word, by nibbles. -/
theorem encXY_and_masks (op x y n : Nibble) :
    encXY op x y n &&& 0xFFFF#16 = encXY op x y n ∧ encXY op x y n &&& 0xF000#16 = encXY op 0 0 0 ∧
      encXY op x y n &&& 0xF00F#16 = encXY op 0 0 n ∧ encXY op x y n &&& 0xF0FF#16 = encXY op 0 y n :=
  ⟨BitVec.and_allOnes, encXY_mask op x y n, encXY_maskLow op x y n, encXF_mask op x (y ++ n)⟩

/-- A word that selects a row is the word of the instruction the row builds: the pattern fixes the nibbles that the
mask keeps, and the instruction's operands are the others. -/
theorem encode_build_of_selects :
    ∀ r ∈ opcodeMap, ∀ op x y n : Nibble, r.selects (encXY op x y n) = true →
      encode (r.build (encXY op x y n)) = encXY op x y n := by
  simp only [opcodeMap, rowsLow, rowsMiddle, rowsHigh, List.cons_append, List.nil_append,
    List.forall_mem_cons, List.not_mem_nil, false_imp_iff, implies_true, and_true, Row.selects, beq_iff_eq,
    BitVec.ofNat_eq_ofNat, encXY_and_masks, encXY_eq_iff, fieldX_encXY, fieldY_encXY, fieldN_encXY,
    fieldKK_encXY, fieldNNN_encXY]
  and_intros
  all_goals
    rintro op x y n ⟨rfl, hx, hy, hn⟩
    subst_vars
    rfl

/-- Settles O3: the word selects the row that builds the instruction. -/
theorem encodeOfDecodeIsIdentity : Obligations.EncodeOfDecodeIsIdentity := by
  intro w i h
  obtain ⟨op, x, y, n, rfl⟩ := exists_eq_encXY w
  obtain ⟨r, hfind, rfl⟩ := Option.map_eq_some_iff.mp h
  have hsel : r.selects (encXY op x y n) = true := by simpa using List.find?_some hfind
  exact encode_build_of_selects r (List.mem_of_find?_eq_some hfind) op x y n hsel

/-- A nibble is one of sixteen. -/
theorem nibble_cases (op : Nibble) :
    op = 0x0 ∨ op = 0x1 ∨ op = 0x2 ∨ op = 0x3 ∨ op = 0x4 ∨ op = 0x5 ∨ op = 0x6 ∨ op = 0x7 ∨ op = 0x8 ∨
      op = 0x9 ∨ op = 0xA ∨ op = 0xB ∨ op = 0xC ∨ op = 0xD ∨ op = 0xE ∨ op = 0xF := by
  revert op; decide

/-- The low nibbles that family 8 leaves unused are those that are no function code of it (R108). -/
theorem unused_code_iff (n : Nibble) : n ∈ ([0x8, 0x9, 0xA, 0xB, 0xC, 0xD, 0xF] : List Nibble) ↔
    n ≠ 0 ∧ n ≠ 1 ∧ n ≠ 2 ∧ n ≠ 3 ∧ n ≠ 4 ∧ n ≠ 5 ∧ n ≠ 6 ∧ n ≠ 7 ∧ n ≠ 14 := by
  revert n; decide

/-- Settles O5: for each leading nibble, the rows of its family select all words but those listed. -/
theorem decodeMissesAreTheListedWords : Obligations.DecodeMissesAreTheListedWords := by
  intro w
  obtain ⟨op, x, y, n, rfl⟩ := exists_eq_encXY w
  rw [op_encXY, fieldN_encXY, unused_code_iff]
  simp only [decode, opcodeMap, rowsLow, rowsMiddle, rowsHigh, Row.selects, ne_eq, fieldNNN_encXY_eq_iff]
  rcases nibble_cases op with
    rfl | rfl | rfl | rfl | rfl | rfl | rfl | rfl | rfl | rfl | rfl | rfl | rfl | rfl | rfl | rfl <;>
    simp [encXY_and_masks, encXY_eq_iff, nibbles_eq_byte_iff]

end Sys2Proof
end

section
/-! Source lines (spec/30_encoding.md R115). -/

namespace Sys2Proof

/-- The line that writes an instruction: its mnemonic and the numbers of its operands. -/
def Instr.source : Instr → Source
  | .cls => ⟨.cls, []⟩
  | .ret => ⟨.ret, []⟩
  | .jp nnn => ⟨.jp, [nnn.toNat]⟩
  | .call nnn => ⟨.call, [nnn.toNat]⟩
  | .sei x kk => ⟨.sei, [x.toNat, kk.toNat]⟩
  | .snei x kk => ⟨.snei, [x.toNat, kk.toNat]⟩
  | .ser x y => ⟨.ser, [x.toNat, y.toNat]⟩
  | .movi x kk => ⟨.movi, [x.toNat, kk.toNat]⟩
  | .addi x kk => ⟨.addi, [x.toNat, kk.toNat]⟩
  | .mov x y => ⟨.mov, [x.toNat, y.toNat]⟩
  | .or x y => ⟨.or, [x.toNat, y.toNat]⟩
  | .and x y => ⟨.and, [x.toNat, y.toNat]⟩
  | .xor x y => ⟨.xor, [x.toNat, y.toNat]⟩
  | .add x y => ⟨.add, [x.toNat, y.toNat]⟩
  | .sub x y => ⟨.sub, [x.toNat, y.toNat]⟩
  | .shr x y => ⟨.shr, [x.toNat, y.toNat]⟩
  | .subn x y => ⟨.subn, [x.toNat, y.toNat]⟩
  | .shl x y => ⟨.shl, [x.toNat, y.toNat]⟩
  | .sner x y => ⟨.sner, [x.toNat, y.toNat]⟩
  | .seti nnn => ⟨.seti, [nnn.toNat]⟩
  | .drw x y n => ⟨.drw, [x.toNat, y.toNat, n.toNat]⟩
  | .skp x => ⟨.skp, [x.toNat]⟩
  | .sknp x => ⟨.sknp, [x.toNat]⟩
  | .getdt x => ⟨.getdt, [x.toNat]⟩
  | .waitk x => ⟨.waitk, [x.toNat]⟩
  | .setdt x => ⟨.setdt, [x.toNat]⟩
  | .setst x => ⟨.setst, [x.toNat]⟩
  | .iadd x => ⟨.iadd, [x.toNat]⟩
  | .glyph x => ⟨.glyph, [x.toNat]⟩
  | .bcd x => ⟨.bcd, [x.toNat]⟩
  | .stm x => ⟨.stm, [x.toNat]⟩
  | .ldm x => ⟨.ldm, [x.toNat]⟩

/-! The number of an operand is within the width of its field (R95). -/

theorem isReg_toNat (x : Nibble) : isReg x.toNat = true := decide_eq_true x.isLt
theorem isCount_toNat (n : Nibble) : isCount n.toNat = true := decide_eq_true n.isLt
theorem isImm8_toNat (kk : Byte) : isImm8 kk.toNat = true := decide_eq_true kk.isLt
theorem isAddr12_toNat (nnn : Addr12) : isAddr12 nnn.toNat = true := decide_eq_true nnn.isLt

/-- The line of an instruction is well formed: its operands are numbers of their fields' widths. -/
theorem Instr.source_wellFormed (i : Instr) : i.source.wellFormed = true := by
  cases i <;>
    simp [Instr.source, Source.wellFormed, Mnemonic.format, isReg_toNat, isCount_toNat, isImm8_toNat,
      isAddr12_toNat]

/-- The line of an instruction stands for it: each field is read back from its number. -/
theorem Instr.source_toInstr (i : Instr) : i.source.toInstr = some i := by
  rw [Source.toInstr, if_pos i.source_wellFormed]
  cases i <;> simp [Instr.source]

/-- The instruction a line stands for is one of the line's mnemonic. -/
theorem Source.toInstr_eq_some {l : Source} {i : Instr} (h : l.toInstr = some i) :
    l.wellFormed = true ∧ i.mnemonic = l.mnemonic := by
  unfold Source.toInstr at h
  split at h
  · rename_i hwf
    refine ⟨hwf, ?_⟩
    obtain rfl := Option.some.inj h
    cases l.mnemonic <;> rfl
  · cases h

/-- Settles O6: the line of each instruction, and what a line stands for. -/
theorem sourceLinesNameInstructions : Obligations.SourceLinesNameInstructions := by
  refine ⟨fun i => ⟨i.source, i.source_wellFormed, i.source_toInstr⟩, fun l hl => ?_,
    fun l i h => Source.toInstr_eq_some h, fun x => ?_⟩
  · rw [Source.toInstr, if_pos hl]
    exact ⟨_, rfl⟩
  · simp [Source.toInstr, Source.wellFormed, Mnemonic.format, Mnemonic.oneOperandShift, isReg_toNat]

end Sys2Proof
end

section
/-! The call stack and the register skips (spec/41_control.md R140, R142, R145, R146). -/

namespace Sys2Proof.Machine

variable {s : State}

/-- A stack fault records the address of the instruction, which is 2 below the advanced `pc` (R250). -/
theorem State.raise_instrAddr (s : State) (c : FaultCause) :
    s.raise c s.instrAddr = { s with fcause := c, finfo := (s.pc - 2).setWidth 17 } := by
  simp only [State.raise, State.instrAddr, BitVec.ofNat_toNat]
  rfl

/-- CALL with room on the stack pushes the advanced `pc` and jumps (R142). -/
theorem exec_call_of_lt (nnn : Addr12) (h : s.sp.val < 16) :
    ∃ stack sp, exec (.call nnn) s = .next (State.jump { s with stack := stack, sp := sp } nnn) ∧
      sp.val = s.sp.val + 1 ∧
      State.liveStack { s with stack := stack, sp := sp } = s.liveStack ++ [s.pc] := by
  obtain ⟨t, hpush, ht, hsp, hlive⟩ := State.push_lt (x := s.pc) h
  rw [ht] at hpush hlive
  exact ⟨t.stack, t.sp, by simp only [exec, execCall, hpush], hsp, hlive⟩

/-- CALL on a full stack records the overflow alone (R142). -/
theorem exec_call_of_full (nnn : Addr12) (h : s.sp.val = 16) :
    exec (.call nnn) s = .next (s.raise .stackOverflow s.instrAddr) := by
  simp only [exec, execCall, State.push_full h]

/-- RET with a live entry pops it into `pc` (R140). -/
theorem exec_ret_of_pos (h : 0 < s.sp.val) :
    ∃ a sp, exec .ret s = .next { s with sp := sp, pc := a } ∧ sp.val + 1 = s.sp.val ∧
      s.liveStack = State.liveStack { s with sp := sp } ++ [a] := by
  obtain ⟨a, t, hpop, ht, hsp, hlive⟩ := State.pop_pos h
  rw [ht] at hpop hlive
  exact ⟨a, t.sp, by simp only [exec, execRet, hpop], hsp, hlive⟩

/-- RET on an empty stack records the underflow alone (R140). -/
theorem exec_ret_of_empty (h : s.sp.val = 0) :
    exec .ret s = .next (s.raise .stackUnderflow s.instrAddr) := by
  simp only [exec, execRet, State.pop_empty h]

/-- Settles O8: the word, CALL with room, CALL on a full stack. -/
theorem callPushesReturnAddress : Obligations.CallPushesReturnAddress := by
  refine ⟨fun nnn => decode_encode (.call nnn), fun nnn s h => ?_, fun nnn s h => ?_⟩
  · obtain ⟨stack, sp, hexec, hsp, hlive⟩ := exec_call_of_lt nnn h
    exact ⟨_, hexec, rfl, hsp, hlive, rfl⟩
  · rw [exec_call_of_full nnn h, State.raise_instrAddr]

/-- Settles O9: the word, RET with a live entry, RET on an empty stack. -/
theorem returnPopsIntoPc : Obligations.ReturnPopsIntoPc := by
  refine ⟨decode_encode .ret, fun s h => ?_, fun s h => ?_⟩
  · obtain ⟨a, sp, hexec, hsp, hlive⟩ := exec_ret_of_pos h
    exact ⟨_, hexec, hlive, hsp, rfl, fun hbound => hbound.returns a (by simp [hlive])⟩
  · rw [exec_ret_of_empty h, State.raise_instrAddr]

/-- Settles O10: what RET pops is determined by the live entries, and the number of them by their list. -/
theorem returnUndoesCall : Obligations.ReturnUndoesCall := by
  intro nnn s h
  obtain ⟨stack, sp, hcall, -, hpushed⟩ := exec_call_of_lt nnn h
  refine ⟨_, hcall, fun u hu => ?_⟩
  have hlive : u.liveStack = s.liveStack ++ [s.pc] := hu.trans hpushed
  have hpos : 0 < u.sp.val := by rw [← u.liveStack_length, hlive]; simp
  obtain ⟨a, sp', hret, -, hpopped⟩ := exec_ret_of_pos hpos
  obtain ⟨hrest, htop⟩ := List.append_inj' (hpopped.symm.trans hlive) rfl
  refine ⟨_, hret, List.singleton_inj.mp htop, Fin.ext ?_, hrest⟩
  rw [← State.liveStack_length, ← State.liveStack_length]
  exact congrArg List.length hrest

/-- SER skips on equality (R145). -/
theorem exec_ser (x y : Nibble) (s : State) :
    exec (.ser x y) s = .next (s.skipIf (decide (s.getV x = s.getV y))) := rfl

/-- SNER skips on inequality (R146). -/
theorem exec_sner (x y : Nibble) (s : State) :
    exec (.sner x y) s = .next (s.skipIf (decide (s.getV x ≠ s.getV y))) := rfl

/-- Settles O12: the words and the misses beside them, the two skips, and a register compared with itself. -/
theorem registerSkips : Obligations.RegisterSkips := by
  refine ⟨fun x y n => ?_, fun x y s => ⟨?_, ?_⟩, fun x s => ⟨?_, ?_⟩⟩
  · split
    · subst n
      exact ⟨decode_encode (.ser x y), decode_encode (.sner x y)⟩
    · rename_i hn
      have hmiss : ∀ op : Nibble, fieldN (encXY op x y n) ≠ 0 := fun op => by rwa [fieldN_encXY]
      exact ⟨(decodeMissesAreTheListedWords _).mpr (.inr (.inl ⟨op_encXY 0x5 x y n, hmiss 0x5⟩)),
        (decodeMissesAreTheListedWords _).mpr
          (.inr (.inr (.inr (.inl ⟨op_encXY 0x9 x y n, hmiss 0x9⟩))))⟩
  · rw [exec_ser, State.skipIf_eq]
    simp only [decide_eq_true_eq]
  · rw [exec_sner, State.skipIf_eq]
    simp only [decide_eq_true_eq, ne_eq, ite_not]
  · rw [exec_ser, State.skipIf_eq, decide_eq_true rfl, if_pos rfl]
  · rw [exec_sner, State.skipIf_eq, decide_eq_false (fun h => h rfl)]
    rfl

end Sys2Proof.Machine
end

section
/-! The flag writers among the ALU instructions (spec/42_alu.md R168 to R172). -/

namespace Sys2Proof.Machine

/-- ADD writes the carry, then the sum (R168). -/
theorem exec_add (x y : Nibble) (s : State) : exec (.add x y) s =
    .next (s.setFlagThen x (addFlag (s.getV x) (s.getV y)) (addResult (s.getV x) (s.getV y))) := rfl

/-- SUB writes the flag of `Vx - Vy`, then the difference (R169). -/
theorem exec_sub (x y : Nibble) (s : State) : exec (.sub x y) s =
    .next (s.setFlagThen x (s.subFlag (s.getV x) (s.getV y)) (subResult (s.getV x) (s.getV y))) := rfl

/-- SUBN writes the flag of `Vy - Vx`, then the difference (R171). -/
theorem exec_subn (x y : Nibble) (s : State) : exec (.subn x y) s =
    .next (s.setFlagThen x (s.subFlag (s.getV y) (s.getV x)) (subResult (s.getV y) (s.getV x))) := rfl

/-- SHR writes the bit shifted out, then the shifted value (R170). -/
theorem exec_shr (x y : Nibble) (s : State) : exec (.shr x y) s =
    .next (s.setFlagThen x (shrFlag (s.shiftOperand x y)) (shrResult (s.shiftOperand x y))) := rfl

/-- SHL writes the bit shifted out, then the shifted value (R172). -/
theorem exec_shl (x y : Nibble) (s : State) : exec (.shl x y) s =
    .next (s.setFlagThen x (shlFlag (s.shiftOperand x y)) (shlResult (s.shiftOperand x y))) := rfl

/-- The result stands in its register, `VF` included (R161). -/
theorem State.getV_setFlagThen_self (s : State) (x : Nibble) (flag result : Byte) :
    (s.setFlagThen x flag result).getV x = result := by
  rw [State.getV_setFlagThen, if_pos rfl]

/-- The flag stands in `VF` when the result goes elsewhere (R161). -/
theorem State.getV_setFlagThen_vf (s : State) {x : Nibble} (h : x ≠ vf) (flag result : Byte) :
    (s.setFlagThen x flag result).getV vf = flag := by
  rw [State.getV_setFlagThen, if_neg h.symm, if_pos rfl]

/-- The other registers stay. -/
theorem State.getV_setFlagThen_of_ne (s : State) {x r : Nibble} {flag result : Byte} (hx : r ≠ x)
    (hvf : r ≠ vf) : (s.setFlagThen x flag result).getV r = s.getV r := by
  rw [State.getV_setFlagThen, if_neg hx, if_neg hvf]

/-- The carry as a byte: 1 when the sum is past 255 (R168). -/
theorem addFlag_eq (a b : Byte) : addFlag a b = if a.toNat + b.toNat > 255 then 1 else 0 := by
  simp only [addFlag, flagByte, decide_eq_true_eq]
  rfl

/-- The not-borrow flag as a byte (R169, R171). -/
theorem State.subFlag_eq (s : State) (a b : Byte) : s.subFlag a b =
    if a.toNat > b.toNat then 1 else if a = b then (if s.cfg.subEqFlag then 1 else 0) else 0 := by
  simp only [State.subFlag, flagByte, gt_iff_lt]
  split
  · rfl
  · split <;> rfl

/-- A bit as a flag value is that binary digit of the number. -/
theorem flagByte_getLsbD_toNat (a : Byte) (k : Nat) :
    (flagByte (a.getLsbD k)).toNat = a.toNat / 2 ^ k % 2 := by
  rw [BitVec.getLsbD, Nat.testBit_eq_decide_div_mod_eq]
  rcases Nat.mod_two_eq_zero_or_one (a.toNat / 2 ^ k) with h | h <;> rw [h] <;> rfl

/-- The difference as a number: modulo 256 (R174). -/
theorem subResult_toNat (a b : Byte) : (subResult a b).toNat = (a.toNat + 256 - b.toNat) % 256 := by
  rw [subResult, BitVec.toNat_ofNat, Nat.mod_mod]

/-- A right shift halves (R170). -/
theorem shrResult_toNat (a : Byte) : (shrResult a).toNat = a.toNat / 2 := by
  have ha : a.toNat < 256 := a.isLt
  rw [shrResult, BitVec.toNat_ofNat, Nat.mod_eq_of_lt (by omega)]

/-- A left shift doubles, modulo 256 (R172). -/
theorem shlResult_toNat (a : Byte) : (shlResult a).toNat = a.toNat * 2 % 256 := by
  rw [shlResult, BitVec.toNat_ofNat, Nat.mod_mod]

/-- SHIFT_SRC chooses the register that is shifted (R170, R172). -/
theorem State.shiftOperand_eq (s : State) (x y : Nibble) :
    s.shiftOperand x y = if s.cfg.shiftSrc = .vx then s.getV x else s.getV y := by
  unfold State.shiftOperand
  cases s.cfg.shiftSrc <;> rfl

/-- Settles O16: the word, the sum, the carry and the frame. -/
theorem addWritesCarry : Obligations.AddWritesCarry := by
  refine ⟨fun x y => decode_encode (.add x y), fun x y s =>
    ⟨_, exec_add x y s, s.setFlagThen_eq .., ?_, fun hx => ?_, fun _ => s.getV_setFlagThen_of_ne⟩⟩
  · rw [s.getV_setFlagThen_self, addResult_toNat]
  · rw [s.getV_setFlagThen_vf hx, addFlag_eq]

/-- Settles O17: the words; for each operand order the difference, the flag and the frame. -/
theorem subtractWritesNotBorrow : Obligations.SubtractWritesNotBorrow := by
  refine ⟨fun x y => ⟨decode_encode (.sub x y), decode_encode (.subn x y)⟩, fun x y s =>
    ⟨⟨_, exec_sub x y s, s.setFlagThen_eq .., ?_, fun hx => ?_, fun _ => s.getV_setFlagThen_of_ne⟩,
      ⟨_, exec_subn x y s, s.setFlagThen_eq .., ?_, fun hx => ?_, fun _ => s.getV_setFlagThen_of_ne⟩⟩⟩
  · rw [s.getV_setFlagThen_self, subResult_toNat]
  · rw [s.getV_setFlagThen_vf hx, s.subFlag_eq]
  · rw [s.getV_setFlagThen_self, subResult_toNat]
  · rw [s.getV_setFlagThen_vf hx, s.subFlag_eq]
    simp only [eq_comm]

/-- Settles O18: the words; for each direction the shifted value, the bit shifted out and the frame. -/
theorem shiftsWriteBitShiftedOut : Obligations.ShiftsWriteBitShiftedOut := by
  refine ⟨fun x y => ⟨decode_encode (.shr x y), decode_encode (.shl x y)⟩, fun x y s a ha => ?_⟩
  rw [← s.shiftOperand_eq] at ha
  subst ha
  refine
    ⟨⟨_, exec_shr x y s, s.setFlagThen_eq .., ?_, fun hx => ?_, fun _ => s.getV_setFlagThen_of_ne⟩,
      ⟨_, exec_shl x y s, s.setFlagThen_eq .., ?_, fun hx => ?_, fun _ => s.getV_setFlagThen_of_ne⟩⟩
  · rw [s.getV_setFlagThen_self, shrResult_toNat]
  · rw [s.getV_setFlagThen_vf hx, shrFlag, flagByte_getLsbD_toNat, pow_zero, Nat.div_one]
  · rw [s.getV_setFlagThen_self, shlResult_toNat]
  · have ha : (s.shiftOperand x y).toNat < 256 := (s.shiftOperand x y).isLt
    rw [s.getV_setFlagThen_vf hx, shlFlag, flagByte_getLsbD_toNat]
    omega

end Sys2Proof.Machine
end

section
/-! Arithmetic on the index register (spec/43_index_memory.md R191, R192). -/

namespace Sys2Proof.Machine

/-- IADD adds to `I` (R191). -/
theorem exec_iadd (x : Nibble) (s : State) :
    exec (.iadd x) s = .next { s with i := s.i + (s.getV x).setWidth 16 } := rfl

/-- GLYPH writes the glyph's address to `I` (R192). -/
theorem exec_glyph (x : Nibble) (s : State) :
    exec (.glyph x) s = .next { s with i := s.glyphAddr (s.getV x) } := rfl

/-- The sum in `I` as a number: a byte keeps its value in 16 bits, and the sum is modulo 65536. -/
theorem add_setWidth_toNat (i : Word) (b : Byte) :
    (i + b.setWidth 16).toNat = (i.toNat + b.toNat) % 65536 := by
  rw [BitVec.toNat_add, BitVec.toNat_setWidth_of_le (by decide)]

/-- The address of a glyph as a number: it does not wrap, as `5 * 255` and the base are small. -/
theorem State.glyphAddr_toNat (s : State) (a : Byte) :
    (s.glyphAddr a).toNat = glyphBaseValue s.cfg.glyphBase + 5 * a.toNat := by
  have ha : a.toNat < 256 := a.isLt
  have hbase : glyphBaseValue s.cfg.glyphBase ≤ 0x050 := by cases s.cfg.glyphBase <;> decide
  rw [State.glyphAddr, BitVec.toNat_ofNat, Nat.mod_eq_of_lt (by omega)]

/-- Settles O21: the word, and the sum with its frame. -/
theorem indexAddWraps : Obligations.IndexAddWraps :=
  ⟨fun x => decode_encode (.iadd x), fun x s => ⟨_, exec_iadd x s, rfl, add_setWidth_toNat ..⟩⟩

/-- Settles O22: the word, and the address with its frame. -/
theorem glyphPointsIndex : Obligations.GlyphPointsIndex :=
  ⟨fun x => decode_encode (.glyph x), fun x s => ⟨_, exec_glyph x s, rfl, s.glyphAddr_toNat _⟩⟩

end Sys2Proof.Machine
end

section
/-! Stores and loads through the index register (spec/43_index_memory.md R193 to R195). -/

namespace Sys2Proof.Machine

variable {s t : State} {x : Nibble}

/-- The first address of 4096 or more fits `FINFO`, whatever `I` (R29). -/
theorem ofNat17_max_toNat (i : Word) :
    (BitVec.ofNat 17 (max i.toNat 4096)).toNat = max i.toNat 4096 := by
  have hi : i.toNat < 65536 := i.isLt
  rw [BitVec.toNat_ofNat, Nat.mod_eq_of_lt (by omega)]

/-- Memory after a run of byte stores from `a` on, as far as it lies below 4096. -/
structure Stored (s t : State) (a : Nat) (xs : List Byte) : Prop where
  byte : ∀ k (h : k < xs.length), a + k < 4096 → t.byteAt (a + k) = xs[k]
  rest : ∀ b, (∀ k, k < xs.length → a + k < 4096 → b ≠ a + k) → t.byteAt b = s.byteAt b

/-- A run of stores that fits ends normally (R61). -/
theorem storeBytes_ok {xs : List Byte} {a : Nat} (hs : s.memWf = true) (hfit : a + xs.length ≤ 4096) :
    ∃ m, storeBytes xs a s = .ok { s with mem := m } ∧ Stored s { s with mem := m } a xs := by
  obtain ⟨t, hrun, ht, -, hget⟩ := storeBytes_fits xs hs hfit
  rw [ht] at hrun hget
  refine ⟨t.mem, hrun, fun k hk _ => ?_, fun b hb => ?_⟩
  · simp only [hget, Nat.le_add_right, Nat.add_lt_add_iff_left, hk, and_self, dite_true,
      Nat.add_sub_cancel_left]
  · rw [hget, dif_neg]
    exact fun hin => hb (b - a) (by omega) (by omega) (by omega)

/-- A run of stores that does not fit ends at the first address of 4096 or more (R76). -/
theorem storeBytes_error {xs : List Byte} {a : Nat} (hs : s.memWf = true)
    (hover : 4096 < a + xs.length) (hne : xs ≠ []) :
    ∃ m, storeBytes xs a s = .error (State.raise { s with mem := m } .addrRange (max a 4096)) ∧
      Stored s { s with mem := m } a xs := by
  obtain ⟨t, hrun, ht, -, hget⟩ := storeBytes_overrun xs hs hover hne
  have hbytes : ∀ b, State.byteAt { s with mem := t.mem } b = t.byteAt b := fun b =>
    State.byteAt_congr (s := t) (t := { s with mem := t.mem }) rfl (congrArg State.cfg ht).symm b
  refine ⟨t.mem, hrun.trans (congrArg _ ht), fun k hk hlt => ?_, fun b hb => ?_⟩
  · simp only [hbytes, hget, Nat.le_add_right, Nat.add_lt_add_iff_left, hk, hlt, and_self, dite_true,
      Nat.add_sub_cancel_left]
  · rw [hbytes, hget, dif_neg]
    exact fun hin => hb (b - a) (by omega) (by omega) (by omega)

/-! ### BCD -/

/-- BCD stores the digits from `I` on (R193). -/
theorem exec_bcd (x : Nibble) (s : State) :
    exec (.bcd x) s = settle (storeBytes (decimalDigits (s.getV x)) (s.effAddr 0) s) := rfl

/-- What the digits' bytes are, where they lie below 4096. -/
theorem Stored.digits {a : Nat} {v : Byte} (h : Stored s t a (decimalDigits v)) :
    (a < 4096 → (t.byteAt a).toNat = v.toNat / 100) ∧
    (a + 1 < 4096 → (t.byteAt (a + 1)).toNat = v.toNat / 10 % 10) ∧
    (a + 2 < 4096 → (t.byteAt (a + 2)).toNat = v.toNat % 10) := by
  have hv : v.toNat < 256 := v.isLt
  have hlen : (decimalDigits v).length = 3 := rfl
  refine ⟨fun ha => ?_, fun ha => ?_, fun ha => ?_⟩
  · rw [← Nat.add_zero a, h.byte 0 (by omega) ha]
    exact Nat.mod_eq_of_lt (by omega)
  · rw [h.byte 1 (by omega) ha]
    exact Nat.mod_eq_of_lt (by omega)
  · rw [h.byte 2 (by omega) ha]
    exact Nat.mod_eq_of_lt (by omega)

/-- Every address but the digits' keeps its byte. -/
theorem Stored.digits_rest {a b : Nat} {v : Byte} (h : Stored s t a (decimalDigits v))
    (h0 : a < 4096 → b ≠ a) (h1 : a + 1 < 4096 → b ≠ a + 1) (h2 : a + 2 < 4096 → b ≠ a + 2) :
    t.byteAt b = s.byteAt b := by
  refine h.rest b fun k hk hlt => ?_
  have hk : k < 3 := hk
  obtain rfl | rfl | rfl : k = 0 ∨ k = 1 ∨ k = 2 := by omega
  · exact h0 hlt
  · exact h1 hlt
  · exact h2 hlt

/-- Settles O23: the word, the digits that fit memory, and the digits that reach past it. -/
theorem bcdStoresDigits : Obligations.BcdStoresDigits := by
  refine ⟨fun x => decode_encode (.bcd x), fun x s hs hfit => ?_, fun x s hs hover => ?_⟩
  · have hfit : s.i.toNat + 2 < 4096 := hfit
    obtain ⟨m, hrun, hm⟩ := storeBytes_ok (xs := decimalDigits (s.getV x)) (a := s.effAddr 0) hs hfit
    obtain ⟨h0, h1, h2⟩ := hm.digits
    rw [exec_bcd, hrun]
    exact ⟨_, rfl, rfl, h0 (Nat.lt_of_add_right_lt hfit), h1 (Nat.lt_of_succ_lt hfit), h2 hfit,
      fun a ha0 ha1 ha2 => hm.digits_rest (fun _ => ha0) (fun _ => ha1) (fun _ => ha2)⟩
  · have hover : 4096 ≤ s.i.toNat + 2 := hover
    obtain ⟨m, hrun, hm⟩ := storeBytes_error (xs := decimalDigits (s.getV x)) (a := s.effAddr 0) hs
      (Nat.lt_succ_of_le hover) (by simp [decimalDigits])
    obtain ⟨h0, h1, -⟩ := hm.digits
    rw [exec_bcd, hrun]
    exact ⟨_, rfl, rfl, ofNat17_max_toNat s.i, rfl, h0, h1,
      fun a ha0 ha1 => hm.digits_rest ha0 ha1 (fun h2 => absurd h2 (Nat.not_lt.mpr hover))⟩

/-! ### STM -/

/-- STM stores `V0..Vx` from `I` on, then steps `I` (R194). -/
theorem exec_stm (x : Nibble) (s : State) : exec (.stm x) s =
    settle ((storeBytes (s.lowRegs x) (s.effAddr 0) s).map fun t => t.stepIndex x) := rfl

/-- `V0..Vx` are `x + 1` registers. -/
theorem State.lowRegs_length (s : State) (x : Nibble) : (s.lowRegs x).length = x.toNat + 1 := by
  simp [State.lowRegs]

/-- The byte that register `k` leaves in memory. -/
theorem Stored.reg {a : Nat} (h : Stored s t a (s.lowRegs x)) {k : Nibble} (hk : k ≤ x)
    (hlt : a + k.toNat < 4096) : t.byteAt (a + k.toNat) = s.getV k := by
  have hlen : k.toNat < (s.lowRegs x).length := by
    rw [State.lowRegs_length]
    exact Nat.lt_succ_of_le hk
  rw [h.byte k.toNat hlen hlt]
  simp [State.lowRegs]

/-- Every address but the registers' keeps its byte. -/
theorem Stored.regs_rest {a b : Nat} (h : Stored s t a (s.lowRegs x))
    (hb : ∀ k : Nibble, k ≤ x → a + k.toNat < 4096 → b ≠ a + k.toNat) : t.byteAt b = s.byteAt b := by
  refine h.rest b fun k hk hlt => ?_
  rw [State.lowRegs_length] at hk
  have hx : x.toNat < 16 := x.isLt
  have hcode : (BitVec.ofNat 4 k).toNat = k := Nat.mod_eq_of_lt (by omega)
  have hle : BitVec.ofNat 4 k ≤ x := BitVec.le_def.mpr (by omega)
  exact hcode ▸ hb (BitVec.ofNat 4 k) hle (by rwa [hcode])

/-- Stepping `I` writes `I` alone. -/
theorem State.stepIndex_eq (s : State) (x : Nibble) :
    s.stepIndex x = { s with i := if s.cfg.ldstInc then s.i + x.setWidth 16 + 1 else s.i } := by
  have hcount : BitVec.ofNat 16 (x.toNat + 1) = x.setWidth 16 + 1 := by
    rw [BitVec.ofNat_add, BitVec.ofNat_toNat]
    rfl
  rw [State.stepIndex, hcount, ← BitVec.add_assoc]
  split <;> rfl

/-- Settles O24: the word, and the transfer with its frame. -/
theorem storeRegistersToMemory : Obligations.StoreRegistersToMemory := by
  refine ⟨fun x => decode_encode (.stm x), fun x s hs hfit => ?_⟩
  have hfit : s.i.toNat + x.toNat < 4096 := hfit
  obtain ⟨m, hrun, hm⟩ := storeBytes_ok (xs := s.lowRegs x) (a := s.effAddr 0) hs
    (by rw [State.lowRegs_length]; exact hfit)
  rw [exec_stm, hrun, Except.map, State.stepIndex_eq]
  refine ⟨_, rfl, rfl, rfl, fun k hk => ?_, fun a ha => hm.regs_rest fun k hk _ => ha k hk⟩
  exact hm.reg hk (Nat.lt_of_le_of_lt (Nat.add_le_add_left hk _) hfit)

/-- Settles O26: the fault ends the stores, and `I` is not stepped. -/
theorem faultingStoreKeepsEarlierBytes : Obligations.FaultingStoreKeepsEarlierBytes := by
  intro x s hs hover
  have hover : 4096 ≤ s.i.toNat + x.toNat := hover
  have hlen := s.lowRegs_length x
  obtain ⟨m, hrun, hm⟩ := storeBytes_error (xs := s.lowRegs x) (a := s.effAddr 0) hs
    (by rw [hlen]; exact Nat.lt_succ_of_le hover) (List.ne_nil_of_length_eq_add_one hlen)
  rw [exec_stm, hrun, Except.map]
  exact ⟨_, rfl, rfl, ofNat17_max_toNat s.i, rfl, fun k hk hlt => hm.reg hk hlt, fun a ha => hm.regs_rest ha⟩

/-! ### LDM -/

/-- LDM loads `V0..Vx` from `I` on, then steps `I` (R195). -/
theorem exec_ldm (x : Nibble) (s : State) : exec (.ldm x) s =
    settle ((loadRegs (s.effAddr 0) (x.toNat + 1) 0 s).map fun t => t.stepIndex x) := rfl

/-- LDM within memory: `V0..Vx` are loaded and `I` is stepped (R195). -/
theorem exec_ldm_of_fits (h : s.i.toNat + x.toNat < 4096) :
    ∃ v, exec (.ldm x) s = .next (State.stepIndex { s with v := v } x) ∧
      ∀ k : Nibble, State.getV { s with v := v } k =
        if k ≤ x then s.byteAt (s.effAddr k.toNat) else s.getV k := by
  have hx : x.toNat < 16 := x.isLt
  obtain ⟨t, hrun, ht, hget⟩ := loadRegs_fits (s.effAddr 0) (x.toNat + 1) (k := 0) (s := s)
    (by omega) h
  rw [ht] at hrun hget
  refine ⟨t.v, by rw [exec_ldm, hrun]; rfl, fun k => ?_⟩
  rw [hget]
  exact if_congr (by rw [BitVec.le_def]; omega) rfl rfl

/-- LDM past memory: the registers below the first address of 4096 or more are loaded, and it is recorded (R76). -/
theorem exec_ldm_of_overrun (h : 4096 ≤ s.i.toNat + x.toNat) :
    ∃ v, exec (.ldm x) s = .next (State.raise { s with v := v } .addrRange (max s.i.toNat 4096)) ∧
      ∀ k : Nibble, State.getV { s with v := v } k =
        if k ≤ x ∧ s.effAddr k.toNat < 4096 then s.byteAt (s.effAddr k.toNat) else s.getV k := by
  have hx : x.toNat < 16 := x.isLt
  obtain ⟨t, hrun, ht, hget⟩ := loadRegs_overrun (s.effAddr 0) (x.toNat + 1) (k := 0) (s := s)
    (by omega) (by omega) (Nat.lt_succ_of_le h)
  rw [ht] at hrun hget
  refine ⟨t.v, by rw [exec_ldm, hrun]; rfl, fun k => ?_⟩
  refine (hget k).trans (if_congr ?_ rfl rfl)
  simp only [BitVec.le_def, State.effAddr]
  omega

/-- Settles O25: the word, and the transfer with its frame. -/
theorem loadRegistersFromMemory : Obligations.LoadRegistersFromMemory := by
  refine ⟨fun x => decode_encode (.ldm x), fun x s hfit => ?_⟩
  obtain ⟨v, hexec, hget⟩ := exec_ldm_of_fits hfit
  rw [hexec, State.stepIndex_eq]
  exact ⟨_, rfl, rfl, rfl, hget⟩

/-- Settles O27: the fault ends the loads, and `I` is not stepped. -/
theorem faultingLoadKeepsEarlierRegisters : Obligations.FaultingLoadKeepsEarlierRegisters := by
  intro x s hover
  obtain ⟨v, hexec, hget⟩ := exec_ldm_of_overrun hover
  exact ⟨_, hexec, rfl, ofNat17_max_toNat s.i, rfl, hget⟩

end Sys2Proof.Machine
end

section
/-! Drawing sprites (spec/44_display.md R213 to R216). -/

namespace Sys2Proof.Machine

variable {s t : State} {x y n : Nibble} {ox oy base rows : Nat}

/-- A 1 bit of the sprite rows `0 .. rows - 1` falls on a cell that is 1 (R216). -/
def State.collides (s : State) (ox oy base rows : Nat) : Prop :=
  ∃ r, r < rows ∧ ∃ c, c < 8 ∧ (s.byteAt (base + r)).getLsbD (7 - c) = true ∧
    s.pix (ox + c) (oy + r) = true

/-- What drawing the sprite rows `0 .. rows - 1` does to the registers and the cells. -/
structure SpriteDrawn (s t : State) (ox oy base rows : Nat) : Prop where
  others : ∀ r, r ≠ vf → t.getV r = s.getV r
  toggled : ∀ cx cy, s.covered ox oy base rows cx cy → t.pix cx cy = !s.pix cx cy
  kept : ∀ cx cy, ¬ s.covered ox oy base rows cx cy → t.pix cx cy = s.pix cx cy
  flag : t.getV vf = 1 ↔ s.collides ox oy base rows
  flagOrZero : t.getV vf = 1 ∨ t.getV vf = 0

/-- A run of rows that starts with `VF` cleared leaves in `VF` whether a bit collided. -/
theorem Drawn.spriteDrawn (h : Drawn (s.setV vf 0#8) t ox oy base 0 rows) :
    SpriteDrawn s t ox oy base rows := by
  have hpix : ∀ cx cy, (s.setV vf 0#8).pix cx cy = s.pix cx cy := State.pix_congr rfl
  have hcov : ∀ cx cy,
      (s.setV vf 0#8).underRows ox oy base 0 rows cx cy ↔ s.covered ox oy base rows cx cy := fun cx cy =>
    (State.underRows_congr rfl rfl ..).trans (s.covered_iff_underRows ..).symm
  have hhit : (s.setV vf 0#8).hitRows ox oy base 0 rows ↔ s.collides ox oy base rows := by
    simp only [State.hitRows, State.collides, hpix, State.byteAt_congr (s := s) (t := s.setV vf 0#8) rfl rfl,
      Nat.zero_le, true_and]
  have hzero : ¬ s.collides ox oy base rows → t.getV vf = 0 := fun hno =>
    (h.noHit (mt hhit.mp hno)).trans (s.getV_setV_self vf 0)
  refine ⟨fun r hr => (h.others r hr).trans (s.getV_setV_of_ne hr _), fun cx cy hc => ?_, fun cx cy hc => ?_,
    ⟨fun hone => ?_, fun hyes => h.hit (hhit.mpr hyes)⟩, ?_⟩
  · rw [h.toggled cx cy ((hcov cx cy).mpr hc), hpix]
  · rw [h.kept cx cy (mt (hcov cx cy).mp hc), hpix]
  · by_contra hno
    exact absurd ((hzero hno).symm.trans hone) (by decide)
  · by_cases hyes : s.collides ox oy base rows
    · exact .inl (h.hit (hhit.mpr hyes))
    · exact .inr (hzero hyes)

/-- DRW clears `VF` and draws its rows from `I` on (R214). -/
theorem exec_drw (x y n : Nibble) (s : State) : exec (.drw x y n) s =
    settle (drawRows (s.getV x).toNat (s.getV y).toNat s.i.toNat n.toNat 0 (s.setV vf 0#8)) := rfl

/-- DRW within memory draws all its rows; with no rows it reads nothing, whatever `I` (R214). -/
theorem exec_drw_of_fits (h : s.i.toNat + n.toNat ≤ 4096 ∨ n = 0) :
    ∃ v fb, exec (.drw x y n) s = .next { s with v := v, fb := fb } ∧
      SpriteDrawn s { s with v := v, fb := fb } (s.getV x).toNat (s.getV y).toNat s.i.toNat n.toNat := by
  have hn : n.toNat < 16 := n.isLt
  by_cases hzero : n = 0
  · subst hzero
    exact ⟨(s.setV vf 0#8).v, s.fb, by rw [exec_drw]; rfl, Drawn.spriteDrawn (Drawn.none ..)⟩
  · obtain ⟨t, hrun, ht, hd⟩ := drawRows_fits (s.getV x).toNat (s.getV y).toNat s.i.toNat n.toNat
      (r := 0) (s := s.setV vf 0#8) (by omega) (h.resolve_right hzero)
    rw [ht] at hrun hd
    rw [Nat.zero_add] at hd
    exact ⟨t.v, t.fb, by rw [exec_drw, hrun]; rfl, hd.spriteDrawn⟩

/-- DRW past memory draws the rows below the first address of 4096 or more, and records it (R76). -/
theorem exec_drw_of_overrun (h : 4096 < s.i.toNat + n.toNat) (hzero : n ≠ 0) :
    ∃ v fb, exec (.drw x y n) s =
        .next (State.raise { s with v := v, fb := fb } .addrRange (max s.i.toNat 4096)) ∧
      SpriteDrawn s { s with v := v, fb := fb } (s.getV x).toNat (s.getV y).toNat s.i.toNat
        (4096 - s.i.toNat) := by
  have hn : n.toNat < 16 := n.isLt
  have hpos : 0 < n.toNat := Nat.pos_of_ne_zero fun h0 => hzero (BitVec.eq_of_toNat_eq h0)
  obtain ⟨t, hrun, ht, hd⟩ := drawRows_overrun (s.getV x).toNat (s.getV y).toNat s.i.toNat n.toNat
    (r := 0) (s := s.setV vf 0#8) (by omega) hpos h
  have hdrawn := hd.spriteDrawn
  rw [Nat.zero_max] at hdrawn
  rw [ht] at hrun
  exact ⟨t.v, t.fb, by rw [exec_drw, hrun]; rfl,
    ⟨hdrawn.others, hdrawn.toggled, hdrawn.kept, hdrawn.flag, hdrawn.flagOrZero⟩⟩

/-- Settles O30: the word, and the cells toggled with the frame. -/
theorem drawTogglesSpriteCells : Obligations.DrawTogglesSpriteCells := by
  refine ⟨fun x y n => decode_encode (.drw x y n), fun x y n s h => ?_⟩
  obtain ⟨v, fb, hexec, hd⟩ := exec_drw_of_fits h
  exact ⟨_, hexec, rfl, hd.others, hd.toggled, hd.kept⟩

/-- Settles O31, for the rows that fit memory. -/
theorem drawReportsCollision : Obligations.DrawReportsCollision := by
  intro x y n s h
  obtain ⟨v, fb, hexec, hd⟩ := exec_drw_of_fits h
  exact ⟨_, hexec, hd.flag, hd.flagOrZero⟩

/-- A pixel is named by its wrapped coordinates (R210). -/
theorem State.pix_eq_of_wrapped (s : State) {cx cy cx' cy' : Nat} (hcol : pixCol cx = pixCol cx')
    (hrow : pixRow cy = pixRow cy') : s.pix cx cy = s.pix cx' cy' := by
  simp only [State.pix, hcol, hrow]

/-- A 1 bit of the sprite covers the cell it falls on. -/
theorem State.covered_of_bit {r c : Nat} (hr : r < rows) (hc : c < 8)
    (hbit : (s.byteAt (base + r)).getLsbD (7 - c) = true) :
    s.covered ox oy base rows (ox + c) (oy + r) :=
  ⟨r, hr, c, hc, hbit, rfl, rfl⟩

/-- After a first draw, the same sprite collides exactly where a covered cell was 0 before it. -/
theorem SpriteDrawn.collides_iff (hd : SpriteDrawn s t ox oy base rows)
    (hbytes : ∀ a, t.byteAt a = s.byteAt a) :
    t.collides ox oy base rows ↔ ∃ cx cy, s.pix cx cy = false ∧ s.covered ox oy base rows cx cy := by
  simp only [State.collides, hbytes]
  constructor
  · rintro ⟨r, hr, c, hc, hbit, hp⟩
    have hcov := State.covered_of_bit (ox := ox) (oy := oy) hr hc hbit
    exact ⟨_, _, by simpa [hd.toggled _ _ hcov] using hp, hcov⟩
  · rintro ⟨cx, cy, hp, r, hr, c, hc, hbit, hcol, hrow⟩
    refine ⟨r, hr, c, hc, hbit, ?_⟩
    rw [hd.toggled _ _ (State.covered_of_bit hr hc hbit), s.pix_eq_of_wrapped hcol hrow, hp, Bool.not_false]

/-- Drawing the same sprite again restores every cell (R215). -/
theorem SpriteDrawn.pix_twice {u : State} (hd : SpriteDrawn s t ox oy base rows)
    (hd' : SpriteDrawn t u ox oy base rows) (hbytes : ∀ a, t.byteAt a = s.byteAt a) (cx cy : Nat) :
    u.pix cx cy = s.pix cx cy := by
  have hcov : t.covered ox oy base rows cx cy ↔ s.covered ox oy base rows cx cy := by
    simp only [State.covered, hbytes]
  by_cases h : s.covered ox oy base rows cx cy
  · rw [hd'.toggled cx cy (hcov.mpr h), hd.toggled cx cy h, Bool.not_not]
  · rw [hd'.kept cx cy (mt hcov.mp h), hd.kept cx cy h]

/-- Settles O32: the second draw has the same origin, rows and bytes as the first. -/
theorem drawTwiceErases : Obligations.DrawTwiceErases := by
  intro x y n s h
  obtain ⟨v, fb, hexec, hd⟩ := exec_drw_of_fits (x := x) (y := y) h
  refine ⟨_, hexec, fun hx hy => ?_⟩
  obtain ⟨v', fb', hexec', hd'⟩ := exec_drw_of_fits (x := x) (y := y) (s := { s with v := v, fb := fb }) h
  rw [hx, hy] at hd'
  exact ⟨_, hexec', fb_ext (hd.pix_twice hd' fun _ => rfl), hd'.flag.trans (hd.collides_iff fun _ => rfl)⟩

/-- Settles O33: the rows that lie below 4096 are drawn as a whole sprite. -/
theorem faultingDrawKeepsEarlierRows : Obligations.FaultingDrawKeepsEarlierRows := by
  intro x y n s h hn
  obtain ⟨v, fb, hexec, hd⟩ := exec_drw_of_overrun (x := x) (y := y) h hn
  refine ⟨_, hexec, rfl, ofNat17_max_toNat s.i, rfl, hd.others, hd.toggled, hd.kept, hd.flag.trans ?_,
    hd.flagOrZero⟩
  simp only [State.collides, Nat.lt_sub_iff_add_lt']

end Sys2Proof.Machine
end

section
/-! Keys and timers (spec/45_keys_timers.md). -/

namespace Sys2Proof.Machine

variable (x : Nibble) (s : State)

/-- SKP skips when the key is held (R230). -/
theorem exec_skp : exec (.skp x) s = .next (s.skipIf (s.keyHeld (s.getV x))) := rfl

/-- SKNP skips when the key is not held (R231). -/
theorem exec_sknp : exec (.sknp x) s = .next (s.skipIf (!s.keyHeld (s.getV x))) := rfl

/-- WAITK sets the two latches (R236). -/
theorem exec_waitk : exec (.waitk x) s = .next { s with kx := x, blocked := true } := rfl

/-- GETDT reads the delay timer (R232). -/
theorem exec_getdt : exec (.getdt x) s = .next (s.setV x s.dt) := rfl

/-- SETDT writes the delay timer (R233). -/
theorem exec_setdt : exec (.setdt x) s = .next { s with dt := s.getV x } := rfl

/-- SETST writes the sound timer (R234). -/
theorem exec_setst : exec (.setst x) s = .next { s with st := s.getV x } := rfl

/-- A key code reads its key modulo 16, unless it is 16 or more and KEY_OOR reads it as up (R237). -/
theorem State.keyHeld_eq (a : Byte) : s.keyHeld a =
    if a.toNat ≤ 15 ∨ s.cfg.keyOor = .low4 then s.keys.getLsbD (a.toNat % 16) else false := by
  have hkey : s.key (a.setWidth 4) = s.keys.getLsbD (a.toNat % 16) := by
    rw [State.key, BitVec.toNat_setWidth]
  rw [State.keyHeld, hkey]
  by_cases ha : a.toNat ≤ 15
  · rw [if_pos ha, if_pos (.inl ha)]
  · rw [if_neg ha]
    cases hoor : s.cfg.keyOor with
    | notPressed => rw [if_neg (by simp [ha])]
    | low4 => rw [if_pos (.inr rfl)]

/-- Settles O34: the words, and the two skips on the level of the key. -/
theorem keySkips : Obligations.KeySkips := by
  refine ⟨fun x => ⟨decode_encode (.skp x), decode_encode (.sknp x)⟩, fun x s held hheld => ?_⟩
  rw [← s.keyHeld_eq] at hheld
  subst hheld
  refine ⟨?_, ?_⟩
  · rw [exec_skp, State.skipIf_eq]
  · rw [exec_sknp, State.skipIf_eq]
    cases s.keyHeld (s.getV x) <;> rfl

/-- Settles O35: the word and the latches. -/
theorem waitKeySetsLatches : Obligations.WaitKeySetsLatches :=
  ⟨fun x => decode_encode (.waitk x), exec_waitk⟩

/-- Settles O36: the words, the read and the two writes. -/
theorem timerAccess : Obligations.TimerAccess :=
  ⟨fun x => ⟨decode_encode (.getdt x), decode_encode (.setdt x), decode_encode (.setst x)⟩,
    fun x s => ⟨⟨_, exec_getdt x s, s.setV_eq x _, fun r => s.getV_setV x r _⟩, exec_setdt x s, exec_setst x s⟩⟩

end Sys2Proof.Machine
end

section
/-! What an instruction can do, said once (spec/40_cycle.md R125): the kinds of next state that the instructions
have, and for each field which instructions write it. -/

namespace Sys2Proof.Machine

/-- What a run of byte stores can do to any state (R61, R76): it ends normally with only memory changed, or it faults
at the first address of 4096 or more; either way memory stays canonical. -/
theorem storeBytes_cases (xs : List Byte) : ∀ (a : Nat) (s : State),
    ∃ m, (s.memWf = true → State.memWf { s with mem := m } = true) ∧
      (storeBytes xs a s = .ok { s with mem := m } ∨
        storeBytes xs a s = .error (State.raise { s with mem := m } .addrRange (max a 4096))) := by
  induction xs with
  | nil => exact fun a s => ⟨s.mem, id, .inl rfl⟩
  | cons x xs ih =>
    intro a s
    by_cases ha : a < 4096
    · obtain ⟨m, hwf, h⟩ := ih (a + 1) (s.putByte a x)
      refine ⟨m, fun hs => hwf (State.memWf_putByte hs ha x), ?_⟩
      rw [show max (a + 1) 4096 = max a 4096 by omega] at h
      rw [storeBytes, State.memWrite_lt ha]
      exact h
    · refine ⟨s.mem, id, .inr ?_⟩
      rw [storeBytes, State.memWrite_ge (by omega), show max a 4096 = a by omega]

/-- The next states of an instruction, by kind. -/
inductive Effect (s : State) : Instr → State → Prop
  | clear : Effect s .cls s.clearFb
  | jump {nnn : Addr12} : Effect s (.jp nnn) (s.jump nnn)
  | skip {i : Instr} {pc : Word} (hflag : flagWriter i = false) (hpc : pc = s.pc ∨ pc = s.pc + 2) :
      Effect s i { s with pc := pc }
  | call {nnn : Addr12} {stack : Vector Word 16} {sp : Fin 17}
      (hlive : State.liveStack { s with stack := stack, sp := sp } = s.liveStack ++ [s.pc]) :
      Effect s (.call nnn) (State.jump { s with stack := stack, sp := sp } nnn)
  | callFull {nnn : Addr12} (hfull : s.sp.val = 16) :
      Effect s (.call nnn) (s.raise .stackOverflow s.instrAddr)
  | ret {a : Word} {sp : Fin 17} (hlive : s.liveStack = State.liveStack { s with sp := sp } ++ [a]) :
      Effect s .ret { s with sp := sp, pc := a }
  | retEmpty (hempty : s.sp.val = 0) : Effect s .ret (s.raise .stackUnderflow s.instrAddr)
  | reg {i : Instr} {x : Nibble} {b : Byte} (hflag : flagWriter i = false) (hvf : namesVF i = (x == vf)) :
      Effect s i (s.setV x b)
  | flagged {i : Instr} {x : Nibble} {c : Bool} {b : Byte} (hvf : namesVF i = (x == vf))
      (hflag : flagWriter i = true) : Effect s i (s.setFlagThen x (flagByte c) b)
  | index {i : Instr} {a : Word} (hi : (∃ nnn, i = .seti nnn) ∨ ∃ x, i = .iadd x ∨ i = .glyph x) :
      Effect s i { s with i := a }
  | delayTimer {x : Nibble} : Effect s (.setdt x) { s with dt := s.getV x }
  | soundTimer {x : Nibble} : Effect s (.setst x) { s with st := s.getV x }
  | wait {x : Nibble} : Effect s (.waitk x) { s with kx := x, blocked := true }
  | digits {x : Nibble} {m : List Host.Cell}
      (hwf : s.memWf = true → State.memWf { s with mem := m } = true) :
      Effect s (.bcd x) { s with mem := m }
  | store {x : Nibble} {m : List Host.Cell} {a : Word}
      (hwf : s.memWf = true → State.memWf { s with mem := m } = true)
      (ha : s.cfg.ldstInc = false → a = s.i) :
      Effect s (.stm x) { s with mem := m, i := a }
  | storeFault {i : Instr} {m : List Host.Cell} (hi : ∃ x, i = .bcd x ∨ i = .stm x)
      (hwf : s.memWf = true → State.memWf { s with mem := m } = true) :
      Effect s i (State.raise { s with mem := m } .addrRange (max s.i.toNat 4096))
  | load {x : Nibble} {v : Vector Byte 16} {a : Word}
      (hv : x ≠ vf → State.getV { s with v := v } vf = s.getV vf) (ha : s.cfg.ldstInc = false → a = s.i) :
      Effect s (.ldm x) { s with v := v, i := a }
  | loadFault {x : Nibble} {v : Vector Byte 16}
      (hv : x ≠ vf → State.getV { s with v := v } vf = s.getV vf) :
      Effect s (.ldm x) (State.raise { s with v := v } .addrRange (max s.i.toNat 4096))
  | draw {x y n : Nibble} {v : Vector Byte 16} {fb : Vector (BitVec 64) 32}
      (hv : State.getV { s with v := v } vf = 0 ∨ State.getV { s with v := v } vf = 1) :
      Effect s (.drw x y n) { s with v := v, fb := fb }
  | drawFault {x y n : Nibble} {v : Vector Byte 16} {fb : Vector (BitVec 64) 32} (hn : n ≠ 0)
      (hv : State.getV { s with v := v } vf = 0 ∨ State.getV { s with v := v } vf = 1) :
      Effect s (.drw x y n) (State.raise { s with v := v, fb := fb } .addrRange (max s.i.toNat 4096))

variable {i : Instr} {s t : State}

/-- A skip, taken or not, is of the kind of the skips (R147). -/
theorem Effect.skipIf (c : Bool) (hflag : flagWriter i = false) : Effect s i (s.skipIf c) := by
  rw [State.skipIf_eq]
  exact .skip hflag (by cases c <;> simp)

/-- A completed transfer moves `I` only under LDST_INC. -/
theorem steppedIndex_of_not {a b : Word} (h : s.cfg.ldstInc = false) :
    (if s.cfg.ldstInc then a else b) = b := by
  rw [h]; rfl

/-! ### The instructions that can fault are of their kind, whichever way they end -/

theorem exec_ret_effect (s : State) : ∃ t, exec .ret s = .next t ∧ Effect s .ret t := by
  by_cases hsp : 0 < s.sp.val
  · obtain ⟨a, sp, hexec, -, hlive⟩ := exec_ret_of_pos hsp
    exact ⟨_, hexec, .ret hlive⟩
  · exact ⟨_, exec_ret_of_empty (by omega), .retEmpty (by omega)⟩

theorem exec_call_effect (nnn : Addr12) (s : State) :
    ∃ t, exec (.call nnn) s = .next t ∧ Effect s (.call nnn) t := by
  by_cases hsp : s.sp.val < 16
  · obtain ⟨stack, sp, hexec, -, hlive⟩ := exec_call_of_lt nnn hsp
    exact ⟨_, hexec, .call hlive⟩
  · exact ⟨_, exec_call_of_full nnn (by omega), .callFull (by omega)⟩

theorem exec_bcd_effect (x : Nibble) (s : State) :
    ∃ t, exec (.bcd x) s = .next t ∧ Effect s (.bcd x) t := by
  obtain ⟨m, hwf, hrun | hrun⟩ := storeBytes_cases (decimalDigits (s.getV x)) (s.effAddr 0) s
  · exact ⟨_, by rw [exec_bcd, hrun, settle], .digits hwf⟩
  · exact ⟨_, by rw [exec_bcd, hrun]; rfl, .storeFault ⟨x, .inl rfl⟩ hwf⟩

theorem exec_stm_effect (x : Nibble) (s : State) :
    ∃ t, exec (.stm x) s = .next t ∧ Effect s (.stm x) t := by
  obtain ⟨m, hwf, hrun | hrun⟩ := storeBytes_cases (s.lowRegs x) (s.effAddr 0) s
  · exact ⟨_, by rw [exec_stm, hrun, Except.map, settle, State.stepIndex_eq],
      .store hwf steppedIndex_of_not⟩
  · exact ⟨_, by rw [exec_stm, hrun]; rfl, .storeFault ⟨x, .inr rfl⟩ hwf⟩

theorem exec_ldm_effect (x : Nibble) (s : State) :
    ∃ t, exec (.ldm x) s = .next t ∧ Effect s (.ldm x) t := by
  have hlt : x ≠ vf → ¬ vf ≤ x := by revert x; decide
  by_cases hfit : s.i.toNat + x.toNat < 4096
  · obtain ⟨v, hexec, hget⟩ := exec_ldm_of_fits hfit
    refine ⟨_, hexec.trans (by rw [State.stepIndex_eq]), .load (fun hx => ?_) steppedIndex_of_not⟩
    rw [hget, if_neg (hlt hx)]
  · obtain ⟨v, hexec, hget⟩ := exec_ldm_of_overrun (Nat.le_of_not_lt hfit)
    refine ⟨_, hexec, .loadFault fun hx => ?_⟩
    rw [hget, if_neg fun h => hlt hx h.1]

theorem exec_drw_effect (x y n : Nibble) (s : State) :
    ∃ t, exec (.drw x y n) s = .next t ∧ Effect s (.drw x y n) t := by
  by_cases hfit : s.i.toNat + n.toNat ≤ 4096 ∨ n = 0
  · obtain ⟨v, fb, hexec, hd⟩ := exec_drw_of_fits (x := x) (y := y) hfit
    exact ⟨_, hexec, .draw hd.flagOrZero.symm⟩
  · obtain ⟨hover, hn⟩ := not_or.mp hfit
    obtain ⟨v, fb, hexec, hd⟩ := exec_drw_of_overrun (x := x) (y := y) (Nat.lt_of_not_le hover) hn
    exact ⟨_, hexec, .drawFault hn hd.flagOrZero.symm⟩

/-! ### All instructions -/

/-- Every instruction answers a next state of its kind. -/
theorem exists_exec_effect (i : Instr) (s : State) : ∃ t, exec i s = .next t ∧ Effect s i t := by
  cases i with
  | cls => exact ⟨_, rfl, .clear⟩
  | ret => exact exec_ret_effect s
  | jp nnn => exact ⟨_, rfl, .jump⟩
  | call nnn => exact exec_call_effect nnn s
  | sei x kk => exact ⟨_, rfl, .skipIf _ rfl⟩
  | snei x kk => exact ⟨_, rfl, .skipIf _ rfl⟩
  | ser x y => exact ⟨_, rfl, .skipIf _ rfl⟩
  | sner x y => exact ⟨_, rfl, .skipIf _ rfl⟩
  | skp x => exact ⟨_, rfl, .skipIf _ rfl⟩
  | sknp x => exact ⟨_, rfl, .skipIf _ rfl⟩
  | movi x kk => exact ⟨_, rfl, .reg rfl rfl⟩
  | addi x kk => exact ⟨_, rfl, .reg rfl rfl⟩
  | mov x y => exact ⟨_, rfl, .reg rfl rfl⟩
  | or x y => exact ⟨_, rfl, .reg rfl rfl⟩
  | and x y => exact ⟨_, rfl, .reg rfl rfl⟩
  | xor x y => exact ⟨_, rfl, .reg rfl rfl⟩
  | getdt x => exact ⟨_, rfl, .reg rfl rfl⟩
  | add x y => exact ⟨_, rfl, .flagged rfl rfl⟩
  | sub x y => exact ⟨_, rfl, .flagged rfl rfl⟩
  | shr x y => exact ⟨_, rfl, .flagged rfl rfl⟩
  | subn x y => exact ⟨_, rfl, .flagged rfl rfl⟩
  | shl x y => exact ⟨_, rfl, .flagged rfl rfl⟩
  | seti nnn => exact ⟨_, rfl, .index (.inl ⟨nnn, rfl⟩)⟩
  | iadd x => exact ⟨_, rfl, .index (.inr ⟨x, .inl rfl⟩)⟩
  | glyph x => exact ⟨_, rfl, .index (.inr ⟨x, .inr rfl⟩)⟩
  | setdt x => exact ⟨_, rfl, .delayTimer⟩
  | setst x => exact ⟨_, rfl, .soundTimer⟩
  | waitk x => exact ⟨_, rfl, .wait⟩
  | bcd x => exact exec_bcd_effect x s
  | stm x => exact exec_stm_effect x s
  | ldm x => exact exec_ldm_effect x s
  | drw x y n => exact exec_drw_effect x y n s

/-- The next state of an instruction is one of its kind. -/
theorem exec_effect (h : exec i s = .next t) : Effect s i t := by
  obtain ⟨u, hu, heffect⟩ := exists_exec_effect i s
  rw [hu] at h
  cases h
  exact heffect

/-! ### Which instructions write what -/

theorem Effect.mem_eq (h : Effect s i t) (hi : ∀ x, i ≠ .bcd x ∧ i ≠ .stm x) : t.mem = s.mem := by
  cases h with
  | digits => exact absurd rfl (hi _).1
  | store => exact absurd rfl (hi _).2
  | storeFault hstore =>
    obtain ⟨x, hx⟩ := hstore
    exact absurd hx (not_or.mpr (hi x))
  | _ => rfl

theorem Effect.fb_eq (h : Effect s i t) (hi : ∀ x y n, i ≠ .cls ∧ i ≠ .drw x y n) : t.fb = s.fb := by
  cases h with
  | clear => exact absurd rfl (hi 0 0 0).1
  | draw => exact absurd rfl (hi _ _ _).2
  | drawFault => exact absurd rfl (hi _ _ _).2
  | _ => rfl

theorem Effect.stack_eq (h : Effect s i t) (hi : ∀ a, i ≠ .ret ∧ i ≠ .call a) :
    t.stack = s.stack ∧ t.sp = s.sp := by
  cases h with
  | call => exact absurd rfl (hi _).2
  | ret => exact absurd rfl (hi 0).1
  | _ => exact ⟨rfl, rfl⟩

theorem Effect.i_eq (h : Effect s i t) (hi : ∀ x a, i ≠ .seti a ∧ i ≠ .iadd x ∧ i ≠ .glyph x)
    (hinc : s.cfg.ldstInc = true → ∀ x, i ≠ .stm x ∧ i ≠ .ldm x) : t.i = s.i := by
  cases h with
  | index hindex =>
    obtain ⟨nnn, hn⟩ | ⟨x, hx⟩ := hindex
    · exact absurd hn (hi 0 nnn).1
    · exact absurd hx (not_or.mpr (hi x 0).2)
  | store _ ha => exact ha (Bool.eq_false_iff.mpr fun h => (hinc h _).1 rfl)
  | load _ ha => exact ha (Bool.eq_false_iff.mpr fun h => (hinc h _).2 rfl)
  | _ => rfl

theorem Effect.wait_eq (h : Effect s i t) (hi : ∀ x, i ≠ .waitk x) :
    t.kx = s.kx ∧ t.blocked = s.blocked := by
  cases h with
  | wait => exact absurd rfl (hi _)
  | _ => exact ⟨rfl, rfl⟩

theorem Effect.dt_eq (h : Effect s i t) (hi : ∀ x, i ≠ .setdt x) : t.dt = s.dt := by
  cases h with
  | delayTimer => exact absurd rfl (hi _)
  | _ => rfl

theorem Effect.st_eq (h : Effect s i t) (hi : ∀ x, i ≠ .setst x) : t.st = s.st := by
  cases h with
  | soundTimer => exact absurd rfl (hi _)
  | _ => rfl

/-- No instruction writes the keys, the pause latch, the parameters, the events, the report or the record of a miss. -/
theorem Effect.host_eq (h : Effect s i t) : t.keys = s.keys ∧ t.paused = s.paused ∧ t.cfg = s.cfg ∧
    t.events = s.events ∧ t.report = s.report ∧ t.missed = s.missed := by
  cases h <;> exact ⟨rfl, rfl, rfl, rfl, rfl, rfl⟩

/-- Settles O54, field by field. -/
theorem instructionsWriteOnlyTheirState : Obligations.InstructionsWriteOnlyTheirState := by
  intro i s t h
  have he := exec_effect h
  obtain ⟨-, -, hcfg, -⟩ := he.host_eq
  exact ⟨fun hi => State.byteAt_congr (he.mem_eq hi) hcfg, he.fb_eq, he.stack_eq, he.i_eq, he.wait_eq,
    he.host_eq⟩

/-! ### The flag register -/

/-- A flag value is 0 or 1. -/
theorem flagByte_cases (c : Bool) : flagByte c = 0 ∨ flagByte c = 1 := by
  cases c
  · exact .inl rfl
  · exact .inr rfl

/-- A destination other than `VF` is not `VF`. -/
theorem ne_vf_of_beq {x : Nibble} {b : Bool} (h : b = (x == vf)) (hb : b = false) : x ≠ vf :=
  beq_eq_false_iff_ne.mp (h.symm.trans hb)

/-- An instruction that is no flag writer and whose destination is not `VF` keeps it (R173). -/
theorem Effect.vf_eq (h : Effect s i t) (hflag : flagWriter i = false) (hvf : namesVF i = false) :
    t.getV vf = s.getV vf := by
  cases h with
  | reg _ hx => exact s.getV_setV_of_ne (ne_vf_of_beq hx hvf).symm _
  | flagged _ hwriter => exact absurd (hwriter.symm.trans hflag) (by decide)
  | load hv => exact hv (ne_vf_of_beq rfl hvf)
  | loadFault hv => exact hv (ne_vf_of_beq rfl hvf)
  | draw => cases hflag
  | drawFault => cases hflag
  | _ => rfl

/-- A flag writer whose destination is not `VF` leaves 0 or 1 in it (R173). -/
theorem Effect.vf_flag (h : Effect s i t) (hflag : flagWriter i = true) (hvf : namesVF i = false) :
    t.getV vf = 0 ∨ t.getV vf = 1 := by
  cases h with
  | flagged hx =>
    rw [s.getV_setFlagThen_vf (ne_vf_of_beq hx hvf)]
    exact flagByte_cases _
  | draw hv => exact hv
  | drawFault _ hv => exact hv
  | skip hno => exact absurd (hflag.symm.trans hno) (by decide)
  | reg hno => exact absurd (hflag.symm.trans hno) (by decide)
  | index hi => obtain ⟨_, rfl⟩ | ⟨_, rfl | rfl⟩ := hi <;> cases hflag
  | storeFault hi => obtain ⟨_, rfl | rfl⟩ := hi <;> cases hflag
  | _ => cases hflag

/-- Settles O19: the two kinds of instruction. -/
theorem onlyNamedInstructionsWriteVF : Obligations.OnlyNamedInstructionsWriteVF := by
  intro i s t h
  have he := exec_effect h
  refine ⟨he.vf_eq, ?_⟩
  rintro (⟨x, y, hx, hi⟩ | ⟨x, y, n, rfl⟩)
  · have hne : (x == vf) = false := beq_eq_false_iff_ne.mpr hx
    simp only [List.mem_cons, List.not_mem_nil, or_false] at hi
    obtain rfl | rfl | rfl | rfl | rfl := hi <;> exact he.vf_flag rfl hne
  · exact he.vf_flag rfl rfl

/-! ### The fault latch -/

/-- The latch after an instruction: as before, or one of the three faults with its condition (R250, R251). -/
theorem Effect.latch_cases (h : Effect s i t) :
    (t.fcause = s.fcause ∧ t.finfo = s.finfo) ∨
    (t.fcause = .stackOverflow ∧ (∃ a, i = .call a) ∧ s.sp.val = 16 ∧ t.finfo = (s.pc - 2).setWidth 17) ∨
    (t.fcause = .stackUnderflow ∧ i = .ret ∧ s.sp.val = 0 ∧ t.finfo = (s.pc - 2).setWidth 17) ∨
    (t.fcause = .addrRange ∧ t.finfo.toNat = max s.i.toNat 4096 ∧
      ((∃ x y n, i = .drw x y n ∧ n ≠ 0) ∨ ∃ x, i = .bcd x ∨ i = .stm x ∨ i = .ldm x)) := by
  have hinfo := ofNat17_max_toNat s.i
  cases h with
  | callFull hfull =>
    rw [State.raise_instrAddr]
    exact .inr (.inl ⟨rfl, ⟨_, rfl⟩, hfull, rfl⟩)
  | retEmpty hempty =>
    rw [State.raise_instrAddr]
    exact .inr (.inr (.inl ⟨rfl, rfl, hempty, rfl⟩))
  | storeFault hi =>
    exact .inr (.inr (.inr ⟨rfl, hinfo, .inr (hi.imp fun _ => Or.imp_right .inl)⟩))
  | loadFault => exact .inr (.inr (.inr ⟨rfl, hinfo, .inr ⟨_, .inr (.inr rfl)⟩⟩))
  | drawFault hn => exact .inr (.inr (.inr ⟨rfl, hinfo, .inl ⟨_, _, _, rfl, hn⟩⟩))
  | _ => exact .inl ⟨rfl, rfl⟩

/-- Settles O55: the cases of the latch. -/
theorem onlyNamedInstructionsFault : Obligations.OnlyNamedInstructionsFault := by
  intro i s t h
  have hi : s.i.toNat < 65536 := s.i.isLt
  obtain ⟨hcause, hinfo⟩ | hover | hunder | ⟨hcause, hinfo, hby⟩ := (exec_effect h).latch_cases
  · exact ⟨fun _ _ => hinfo, fun hs ht => absurd (hcause.trans hs) ht, fun _ _ _ _ => ⟨hcause, hinfo⟩⟩
  · obtain ⟨hcause, ⟨a, ha⟩, -⟩ := id hover
    refine ⟨fun _ ht => ?_, fun _ _ => .inl hover, fun _ hcall _ _ => absurd ha (hcall a)⟩
    exact absurd (hcause.symm.trans ht) (by decide)
  · obtain ⟨hcause, hret, -⟩ := id hunder
    refine ⟨fun _ ht => ?_, fun _ _ => .inr (.inl hunder), fun hno _ _ _ => absurd hret hno⟩
    exact absurd (hcause.symm.trans ht) (by decide)
  · refine ⟨fun _ ht => ?_, fun _ _ => .inr (.inr ⟨hcause, by omega, by omega, hby⟩), fun _ _ hdrw hmem => ?_⟩
    · exact absurd (hcause.symm.trans ht) (by decide)
    · obtain ⟨x, y, n, hd, hn⟩ | ⟨x, hx⟩ := hby
      · exact absurd hd (hdrw x y n hn)
      · obtain ⟨hbcd, hstm, hldm⟩ := hmem x
        exact absurd hx (not_or.mpr ⟨hbcd, not_or.mpr ⟨hstm, hldm⟩⟩)

/-! ### What an instruction keeps of the invariants -/

/-- An instruction keeps memory's canonical form. -/
theorem Effect.memWf (h : Effect s i t) (hs : s.memWf = true) : t.memWf = true := by
  cases h with
  | digits hwf => exact hwf hs
  | store hwf => exact hwf hs
  | storeFault _ hwf => exact hwf hs
  | _ => exact hs

/-- From an advanced `pc` of at most `0x1000`, an instruction jumps below it, returns to it or skips past it (R43). -/
theorem Effect.pcBounded (h : Effect s i t) (hpc : s.pc.toNat ≤ 0x1000)
    (hret : ∀ a ∈ s.liveStack, a.toNat ≤ 0x1000) : t.PcBounded := by
  have htarget : ∀ nnn : Addr12, (nnn.setWidth 16).toNat ≤ 0x1002 := fun nnn => by
    have hn : nnn.toNat < 4096 := nnn.isLt
    rw [BitVec.toNat_setWidth_of_le (by decide)]
    omega
  cases h with
  | jump => exact ⟨fun _ => htarget _, hret⟩
  | skip _ hskip =>
    refine ⟨fun _ => ?_, hret⟩
    obtain rfl | rfl := hskip
    · exact hpc.trans (by decide)
    · have hadd : (s.pc + 2).toNat = (s.pc.toNat + 2) % 65536 := BitVec.toNat_add ..
      simp only [hadd]
      omega
  | call hlive =>
    refine ⟨fun _ => htarget _, fun a ha => ?_⟩
    obtain hold | rfl := List.mem_append.mp (hlive ▸ ha) |>.imp_right List.mem_singleton.mp
    · exact hret a hold
    · exact hpc
  | ret hlive =>
    rw [hlive, List.forall_mem_append] at hret
    obtain ⟨hrest, htop⟩ := hret
    exact ⟨fun _ => (htop _ (List.mem_singleton_self _)).trans (by decide), hrest⟩
  | _ => exact ⟨fun _ => hpc.trans (by decide), hret⟩

end Sys2Proof.Machine
end

section
/-! The fetch and the `STEP` event (spec/20_memory.md R64, spec/40_cycle.md R120 to R128). -/

namespace Sys2Proof.Machine

variable {s : State}

/-- With both bytes in memory the fetch reads the word at `pc` (R64, R121). -/
theorem State.fetch_ok (h : s.pc.toNat + 1 < 4096) :
    s.fetch = .ok (wordOf (s.byteAt s.pc.toNat) (s.byteAt (s.pc.toNat + 1))) := by
  obtain ⟨-, hok⟩ | ⟨hge, -⟩ := s.fetch_cases
  · exact hok
  · omega

/-- The word of two bytes as a number: the first is the high one (R91). -/
theorem wordOf_toNat (hi lo : Byte) : (wordOf hi lo).toNat = hi.toNat * 256 + lo.toNat := by
  have hlo : lo.toNat < 2 ^ 8 := lo.isLt
  rw [wordOf, BitVec.toNat_append, ← Nat.shiftLeft_add_eq_or_of_lt hlo, Nat.shiftLeft_eq]

/-- Settles O42: the word, and the fault at the first address out of range. -/
theorem fetchIsBigEndian : Obligations.FetchIsBigEndian := by
  refine fun s => ⟨fun h => ⟨_, State.fetch_ok h, wordOf_toNat ..⟩, fun h => ?_, fun h => ?_⟩
  · rw [State.fetch_error_of_pc_ge (by omega), h]
    rfl
  · rw [State.fetch_error_of_pc_ge (by omega), Nat.max_eq_left h]

/-- Settles O43: each byte is read where it was written, and the two addresses differ. -/
theorem storedWordIsFetched : Obligations.StoredWordIsFetched := by
  intro s w hs hpc
  have hs' : (s.putByte s.pc.toNat (highByte w)).memWf = true := State.memWf_putByte hs (by omega) _
  have hne : s.pc.toNat ≠ s.pc.toNat + 1 := (Nat.succ_ne_self _).symm
  rw [State.fetch_ok (by exact hpc)]
  simp only [State.putByte_keeps, State.byteAt_putByte hs', State.byteAt_putByte hs, if_neg hne, if_true,
    wordOf_bytes]

/-- A recorded fault holds a STEP back (R120). -/
theorem State.stepEvent_of_fault (hf : s.fcause ≠ .noFault) : s.stepEvent = .next (s.reporting .halted) :=
  if_pos hf

/-- Without a fault, the pause latch holds a STEP back (R120). -/
theorem State.stepEvent_of_paused (hf : s.fcause = .noFault) (hp : s.paused = true) :
    s.stepEvent = .next (s.reporting .paused) := by
  rw [State.stepEvent, if_neg (not_not_intro hf), if_pos hp]

/-- With neither latch set, a STEP polls the keys or goes through the cycle (R120). -/
theorem State.stepEvent_of_free (hf : s.fcause = .noFault) (hp : s.paused = false) :
    s.stepEvent = if s.blocked then .next s.poll else s.cycle := by
  rw [State.stepEvent, if_neg (not_not_intro hf), hp]
  rfl

/-- A step that takes the event `STEP`. -/
theorem step_of_step (he : s.nextEvent = .step) : step s = s.takeEvent.stepEvent := by
  rw [step, he]; rfl

/-- A step that executes goes through the cycle. -/
theorem step_of_running (h : s.Running) : step s = s.takeEvent.cycle := by
  obtain ⟨he, hf, hp, hb⟩ := h
  rw [step_of_step he, State.stepEvent_of_free (s := s.takeEvent) hf hp]
  exact if_neg (Bool.eq_false_iff.mp hb)

/-- A step in the polling state polls (R126). -/
theorem step_of_blocked (he : s.nextEvent = .step) (hf : s.fcause = .noFault) (hp : s.paused = false)
    (hb : s.blocked = true) : step s = .next s.takeEvent.poll := by
  rw [step_of_step he, State.stepEvent_of_free (s := s.takeEvent) hf hp]
  exact if_pos hb

/-- Settles O38: the two outcomes of the key scan. -/
theorem blockedStepPollsKeys : Obligations.BlockedStepPollsKeys := by
  intro s he hf hp hb
  rw [step_of_blocked he hf hp hb]
  refine ⟨fun hnone => ?_, fun k hk hlow => ?_⟩
  · have hscan : s.takeEvent.anyPressed = none := s.takeEvent.anyPressed_eq_none_iff.mpr hnone
    rw [State.poll, hscan]
    rfl
  · have hscan : s.takeEvent.anyPressed = some k := (s.takeEvent.anyPressed_eq_some_iff k).mpr ⟨hk, hlow⟩
    rw [State.poll, hscan]
    exact ⟨_, rfl, rfl, rfl, rfl, fun r => s.getV_setV s.kx r _⟩

/-- Settles O39: the cycle with its fetch and its decoding done. -/
theorem stepRunsTheDecodedInstruction : Obligations.StepRunsTheDecodedInstruction := by
  intro s i hrun hpc hdecode
  have hstep : step s = conclude (exec i { s with pc := s.pc + 2, events := s.events.tail }) := by
    have hfetch : s.takeEvent.fetch = .ok (wordOf (s.byteAt s.pc.toNat) (s.byteAt (s.pc.toNat + 1))) :=
      State.fetch_ok (s := s.takeEvent) hpc
    simp only [step_of_running hrun, State.cycle, hfetch, hdecode]
    rfl
  refine ⟨hstep, fun t ht => ⟨?_, rfl, rfl⟩⟩
  rw [hstep, ht, conclude]

/-- Settles O40: the fetch, and the step whose fetch faults. -/
theorem fetchFaultLeavesPc : Obligations.FetchFaultLeavesPc := by
  refine ⟨fun s => State.fetch_ok, fun s hrun hpc => ?_⟩
  have hfetch := State.fetch_error_of_pc_ge (s := s.takeEvent) hpc
  rw [step_of_running hrun, State.cycle, hfetch]
  exact ⟨_, rfl, rfl, ofNat17_max_toNat s.pc, rfl, rfl⟩

/-- Settles O41: the cycle whose decoding misses. -/
theorem decodeMissOnlyAdvances : Obligations.DecodeMissOnlyAdvances := by
  intro s w hrun hpc hw hdecode
  have hfetch : s.takeEvent.fetch = .ok w := hw ▸ State.fetch_ok (s := s.takeEvent) hpc
  simp only [step_of_running hrun, State.cycle, hfetch, hdecode]
  rfl

/-- Settles O44: the two latches in their order. -/
theorem latchesHoldTheStepBack : Obligations.LatchesHoldTheStepBack :=
  fun s he => ⟨fun hf => (step_of_step he).trans (s.takeEvent.stepEvent_of_fault hf),
    fun hf hp => (step_of_step he).trans (s.takeEvent.stepEvent_of_paused hf hp)⟩

end Sys2Proof.Machine
end

section
/-! The host's events (spec/60_exceptions.md R260, R266, R270; spec/70_reset_and_hazards.md R290 to R293). -/

namespace Sys2Proof.Machine

open Sys2Proof.Config

variable {s : State} {image : List Byte}

/-! ### TICK, SETKEY, PAUSE, RESUME -/

/-- A step that takes a `TICK`. -/
theorem step_of_tick (he : s.nextEvent = .tick) : step s = .next s.takeEvent.tick := by
  rw [step, he]; rfl

/-- A timer counts down to 0 and stays there (R260). -/
theorem countDown_toNat (t : Byte) : (countDown t).toNat = t.toNat - 1 := by
  have ht : t.toNat < 256 := t.isLt
  unfold countDown
  split
  · rename_i hpos
    have hle : (1#8).toNat ≤ t.toNat := hpos
    rw [BitVec.toNat_sub_of_le (BitVec.le_def.mpr hle)]
    rfl
  · omega

/-- TICK counts when neither latch is set (R260). -/
theorem State.tick_of_free (hf : s.fcause = .noFault) (hp : s.paused = false) :
    s.tick = { s with dt := countDown s.dt, st := countDown s.st } := if_pos ⟨hf, hp⟩

/-- TICK writes the timers alone (R260). -/
theorem State.tick_eq (s : State) : s.tick = { s with dt := s.tick.dt, st := s.tick.st } := by
  unfold State.tick; split <;> rfl

/-- TICK does nothing under a latch (R253, R270). -/
theorem State.tick_of_latched (h : s.fcause ≠ .noFault ∨ s.paused = true) : s.tick = s :=
  if_neg fun ⟨hf, hp⟩ => h.elim (· hf) fun hp' => absurd (hp.symm.trans hp') (by decide)

/-- Settles O46: the count and the two gates. -/
theorem tickCountsDown : Obligations.TickCountsDown := by
  refine fun s he => ⟨fun hf hp => ?_, fun h => ?_⟩
  · rw [step_of_tick he, State.tick_of_free (s := s.takeEvent) hf hp]
    exact ⟨_, rfl, rfl, countDown_toNat s.dt, countDown_toNat s.st⟩
  · rw [step_of_tick he, State.tick_of_latched (s := s.takeEvent) h]
    rfl

/-- SETKEY gives its own key the level and leaves the others (R266). -/
theorem State.key_setKey (s : State) (code k : Nibble) (pressed : Bool) :
    (s.setKey code pressed).key k = if k = code then pressed else s.key k := by
  rw [State.key, State.setKey_keys, getLsbD_setBit _ _ _ _ code.isLt]
  exact if_congr BitVec.toNat_inj rfl rfl

/-- Settles O48: the key written and the frame. -/
theorem setKeyWritesOneKey : Obligations.SetKeyWritesOneKey := by
  intro s code pressed he
  refine ⟨s.takeEvent.setKey code pressed, by rw [step, he]; rfl, rfl, fun k => ?_⟩
  exact s.takeEvent.key_setKey code k pressed

/-- PAUSE writes the pause latch alone (R270). -/
theorem State.pause_eq (s : State) :
    s.pause = { s with paused := if s.fcause = .noFault then true else s.paused } := by
  unfold State.pause; split <;> rfl

/-- RESUME writes the pause latch alone (R270). -/
theorem State.resume_eq (s : State) :
    s.resume = { s with paused := if s.fcause = .noFault then false else s.paused } := by
  unfold State.resume; split <;> rfl

/-- Settles O49: the two writes. -/
theorem pauseAndResume : Obligations.PauseAndResume := by
  refine fun s => ⟨fun he => ?_, fun he => ?_⟩
  · rw [step, he, State.happen, State.pause_eq]
    rfl
  · rw [step, he, State.happen, State.resume_eq]
    rfl

/-! ### RESET -/

/-- A step that takes a `RESET`. -/
theorem step_of_reset (he : s.nextEvent = .reset image) : step s = .next (s.takeEvent.resetWith image) := by
  rw [step, he]; rfl

/-- RESET with an image that fits lists its cells from `0x200` on (R291). -/
theorem State.resetWith_of_fits (s : State) (h : image.length ≤ 3584) : s.resetWith image =
    { State.reset with
      mem := imageCells s.cfg.font progBase image, keys := s.keys, cfg := s.cfg, events := s.events,
      missed := s.missed } := by
  rw [State.resetWith]
  exact if_pos (decide_eq_true h)

/-- RESET with a larger image records LoadSize (R292). -/
theorem State.resetWith_of_oversized (s : State) (h : 3584 < image.length) : s.resetWith image =
    { State.reset with
      keys := s.keys, cfg := s.cfg, events := s.events, missed := s.missed, fcause := .loadSize } := by
  have hfits : ¬ imageFits image = true := fun hf => absurd (of_decide_eq_true hf) (Nat.not_le.mpr h)
  rw [State.resetWith]
  exact if_neg hfits

/-- What memory reads as after RESET: the image where it lies, the unlisted contents elsewhere (R36, R293). -/
theorem State.byteAt_resetWith (s : State) (h : image.length ≤ 3584) (a : Nat) :
    (s.resetWith image).byteAt a =
      if h : 0x200 ≤ a ∧ a < 0x200 + image.length then image[a - 0x200]'(by omega)
      else unlistedByte s.cfg.font a := by
  rw [s.resetWith_of_fits h]
  exact imageCells_get image

/-- Settles O50: every item, then memory in the image, in the font and elsewhere. -/
theorem resetLoadsImage : Obligations.ResetLoadsImage := by
  intro s image he hfits
  have hbyte := s.takeEvent.byteAt_resetWith hfits
  refine ⟨_, step_of_reset he, ?_, State.resetWith_memWf _ image, fun a ha => ?_, fun j hj => ?_, fun a ha => ?_⟩
  · rw [State.resetWith_of_fits _ hfits]
    rfl
  · simp only [hbyte, Nat.le_add_right, Nat.add_lt_add_iff_left, ha, and_self, dite_true,
      Nat.add_sub_cancel_left]
  · rw [hbyte, dif_neg (by omega)]
    exact unlistedByte_font _ hj
  · rw [hbyte, dif_neg (by omega)]
    exact unlistedByte_outside _ (by omega)

/-- Settles O51, with the event taken off the list. -/
theorem oversizedImageIsRejected : Obligations.OversizedImageIsRejected := by
  intro s image he hlarge
  rw [step_of_reset he, State.resetWith_of_oversized _ hlarge]
  rfl

/-- Settles O56, item by item. -/
theorem resetStateMeetsTheInvariants : Obligations.ResetStateMeetsTheInvariants := by
  have hpix : ∀ x y, State.reset.pix x y = false := State.reset.pix_clearFb
  refine ⟨fun x => ?_, rfl, rfl, fun k hk => ?_, rfl, rfl, rfl, rfl, rfl, rfl, rfl, rfl, rfl, fun k _ => hpix _ _, hpix,
    fun k => ?_, fun j hj => unlistedByte_font _ hj, fun a ha => unlistedByte_outside _ ha, ?_, rfl, rfl, rfl, rfl, rfl,
    rfl, rfl, rfl, rfl, ⟨fun _ => by decide, ?_⟩, rfl⟩
  · simp [State.getV, State.reset]
  · simp [State.reset]
  · simp [State.key, State.reset]
  · decide
  · simp [State.liveStack, State.reset]

end Sys2Proof.Machine
end

section
/-! What a step can do, said once, with the kind of effect of the instruction it executes (spec/40_cycle.md R120 to
R128), and the rules of the whole machine. -/

namespace Sys2Proof.Machine

variable {s t : State}

/-- The next states of the machine, by what the step did. -/
inductive StepEffect (s : State) : State → Prop
  | reset (image : List Byte) (he : s.nextEvent = .reset image) : StepEffect s (s.takeEvent.resetWith image)
  | tick {dt st : Byte} (he : s.nextEvent = .tick) (hfrozen : s.fcause ≠ .noFault → dt = s.dt ∧ st = s.st) :
      StepEffect s { s.takeEvent with dt := dt, st := st }
  | setKey (code : Nibble) (pressed : Bool) (he : s.nextEvent = .setKey code pressed) :
      StepEffect s (s.takeEvent.setKey code pressed)
  | pauseLatch {p : Bool} (hfrozen : s.fcause ≠ .noFault → p = s.paused) :
      StepEffect s { s.takeEvent with paused := p }
  | halted : StepEffect s (s.takeEvent.reporting .halted)
  | paused (hf : s.fcause = .noFault) : StepEffect s (s.takeEvent.reporting .paused)
  | waiting (hf : s.fcause = .noFault) : StepEffect s (s.takeEvent.reporting .waiting)
  | keyTaken (k : Nibble) (he : s.nextEvent = .step) (hf : s.fcause = .noFault) (hk : s.anyPressed = some k) :
      StepEffect s
        (({ s.takeEvent.setV s.kx (k.setWidth 8) with blocked := false } : State).reporting (.keyTaken k))
  | fetchFault (hrun : s.Running) : StepEffect s (s.takeEvent.raise .addrRange (max s.pc.toNat 4096)).reportEnd
  | miss (w : Word) (hrun : s.Running) (hpc : s.pc.toNat + 1 < 4096) :
      StepEffect s (s.takeEvent.advance.decodeMiss w)
  | execute (i : Instr) (u : State) (hrun : s.Running) (hpc : s.pc.toNat + 1 < 4096)
      (hdecode : decode (wordOf (s.byteAt s.pc.toNat) (s.byteAt (s.pc.toNat + 1))) = some i)
      (heffect : Effect s.takeEvent.advance i u) : StepEffect s u.reportEnd

/-- A polling step waits or takes the key found (R126). -/
theorem poll_effect (he : s.nextEvent = .step) (hf : s.fcause = .noFault) : StepEffect s s.takeEvent.poll := by
  obtain ⟨-, hpoll⟩ | ⟨k, hk, hpoll⟩ := s.takeEvent.poll_cases
  · rw [hpoll]
    exact .waiting hf
  · rw [hpoll]
    exact .keyTaken k he hf hk

/-- The next state of a `STEP` is one of those. -/
theorem stepEvent_effect (he : s.nextEvent = .step) (h : s.takeEvent.stepEvent = .next t) : StepEffect s t := by
  obtain ⟨-, rfl⟩ | ⟨hf, -, rfl⟩ | ⟨hf, -, -, rfl⟩ | ⟨hf, hp, hb, -, rfl⟩ |
    ⟨hf, hp, hb, hpc, w, -, rfl, ⟨-, rfl⟩ | ⟨i, u, hdecode, hexec, rfl⟩⟩ := State.stepEvent_cases h
  · exact .halted
  · exact .paused hf
  · exact poll_effect he hf
  · exact .fetchFault ⟨he, hf, hp, hb⟩
  · exact .miss _ ⟨he, hf, hp, hb⟩ hpc
  · exact .execute i u ⟨he, hf, hp, hb⟩ hpc hdecode (exec_effect hexec)

/-- The next state of a step is one of those. -/
theorem step_effect (h : step s = .next t) : StepEffect s t := by
  obtain ⟨image, he, rfl⟩ | ⟨he, hstep⟩ | ⟨he, rfl⟩ | ⟨code, pressed, he, rfl⟩ | ⟨he, rfl⟩ | ⟨he, rfl⟩ :=
    step_cases h
  · exact .reset image he
  · exact stepEvent_effect he hstep
  · rw [State.tick_eq]
    refine .tick he fun hf => ?_
    rw [State.tick_of_latched (s := s.takeEvent) (.inl hf)]
    exact ⟨rfl, rfl⟩
  · exact .setKey code pressed he
  · rw [State.pause_eq]
    exact .pauseLatch fun hf => if_neg hf
  · rw [State.resume_eq]
    exact .pauseLatch fun hf => if_neg hf

/-- RESET keeps the keys and the parameters (R290), and clears `BLOCKED` and the stack, with `PC` at `0x200` (R291). -/
theorem State.resetWith_fields (s : State) (image : List Byte) :
    (s.resetWith image).keys = s.keys ∧ (s.resetWith image).cfg = s.cfg ∧
      (s.resetWith image).blocked = false ∧ (s.resetWith image).pc = 0x200 ∧
      (s.resetWith image).liveStack = [] := by
  unfold State.resetWith; split <;> exact ⟨rfl, rfl, rfl, rfl, rfl⟩

/-! ### Invariants -/

/-- Settles O57: RESET lists its image in canonical form, and only stores change the listing otherwise. -/
theorem stepKeepsMemoryCanonical : Obligations.StepKeepsMemoryCanonical := by
  intro s t hs h
  cases step_effect h with
  | reset image => exact State.resetWith_memWf _ image
  | execute i u _ _ _ heffect => exact heffect.memWf hs
  | _ => exact hs

/-- A program counter that was fetched from, advanced. -/
theorem advance_pc_toNat {pc : Word} (h : pc.toNat + 1 < 4096) : (pc + 2#16).toNat ≤ 0x1000 := by
  have hadd : (pc + 2#16).toNat = (pc.toNat + 2) % 65536 := BitVec.toNat_add ..
  omega

/-- Settles O58: an advanced `pc` is at most `0x1000`, as its instruction lay in memory. -/
theorem stepKeepsPcBounded : Obligations.StepKeepsPcBounded := by
  intro s t hs h
  obtain ⟨hpc, hret⟩ := id hs
  cases step_effect h with
  | reset image =>
    obtain ⟨-, -, -, hzero, hempty⟩ := s.takeEvent.resetWith_fields image
    refine ⟨fun _ => by rw [hzero]; decide, fun a ha => ?_⟩
    rw [hempty] at ha
    cases ha
  | fetchFault hrun => exact ⟨fun _ => hpc hrun.noFault, hret⟩
  | miss w _ hfetch => exact ⟨fun _ => (advance_pc_toNat hfetch).trans (by decide), hret⟩
  | execute i u _ hfetch _ heffect =>
    obtain ⟨hpc', hret'⟩ := heffect.pcBounded (advance_pc_toNat hfetch) hret
    exact ⟨hpc', hret'⟩
  | _ => exact ⟨hpc, hret⟩

/-- The pair of the latch depends on the latch alone. -/
theorem State.latchWf_congr (hc : t.fcause = s.fcause) (hi : t.finfo = s.finfo) (hs : s.latchWf) : t.latchWf := by
  unfold State.latchWf at *
  rw [hc, hi]
  exact hs

/-- A stack fault records the address of an instruction in memory. -/
theorem State.latchWf_of_stackFault (hc : t.fcause = .stackOverflow ∨ t.fcause = .stackUnderflow)
    (hi : t.finfo.toNat ≤ 0x0FFE) : t.latchWf := by
  rw [State.latchWf]
  obtain hc | hc := hc <;> rw [hc] <;> exact hi

/-- An address fault records an address that R250 allows. -/
theorem State.latchWf_of_addrRange {a : Word} (hc : t.fcause = .addrRange)
    (hi : t.finfo.toNat = max a.toNat 4096) : t.latchWf := by
  have ha : a.toNat < 65536 := a.isLt
  rw [State.latchWf, hc]
  change 4096 ≤ t.finfo.toNat ∧ t.finfo.toNat ≤ 65550
  omega

/-- The address of an instruction that was fetched from memory, as a stack fault records it. -/
theorem instrAddr_toNat {pc : Word} (h : pc.toNat + 1 < 4096) :
    ((pc + 2#16 - 2).setWidth 17).toNat ≤ 0x0FFE := by
  have hsub : pc + 2#16 - 2 = pc := BitVec.add_sub_cancel pc 2#16
  rw [BitVec.toNat_setWidth_of_le (by decide), hsub]
  omega

/-- Settles O59: a fault raised by an instruction records its own address, or one past memory. -/
theorem stepKeepsFaultLatchLegal : Obligations.StepKeepsFaultLatchLegal := by
  intro s t hs h
  cases step_effect h with
  | reset image =>
    unfold State.resetWith
    split <;> rfl
  | fetchFault => exact State.latchWf_of_addrRange (a := s.pc) rfl (ofNat17_max_toNat s.pc)
  | execute i u _ hfetch _ heffect =>
    have haddr := instrAddr_toNat hfetch
    obtain ⟨hc, hi⟩ | ⟨hc, -, -, hi⟩ | ⟨hc, -, -, hi⟩ | ⟨hc, hi, -⟩ := heffect.latch_cases
    · exact State.latchWf_congr (s := s) hc hi hs
    · exact State.latchWf_of_stackFault (.inl hc) (hi ▸ haddr)
    · exact State.latchWf_of_stackFault (.inr hc) (hi ▸ haddr)
    · exact State.latchWf_of_addrRange hc hi
  | _ => exact hs

/-! ### What changes the latches, the timers and the keys -/

/-- BLOCKED after a step: as before, or changed by RESET, by a poll that finds a key, or by a fetched WAITK (R129). -/
theorem StepEffect.blocked_cases (h : StepEffect s t) :
    t.blocked = s.blocked ∨
    (t.blocked = false ∧ ((s.nextEvent = .step ∧ ∃ k : Nibble, s.key k = true) ∨
      ∃ image, s.nextEvent = .reset image)) ∨
    (s.Running ∧ ∃ x, decode (wordOf (s.byteAt s.pc.toNat) (s.byteAt (s.pc.toNat + 1))) = some (.waitk x)) := by
  cases h with
  | reset image he =>
    obtain ⟨-, -, hb, -⟩ := s.takeEvent.resetWith_fields image
    exact .inr (.inl ⟨hb, .inr ⟨image, he⟩⟩)
  | keyTaken k he _ hk =>
    obtain ⟨hheld, -⟩ := (s.anyPressed_eq_some_iff k).mp hk
    exact .inr (.inl ⟨rfl, .inl ⟨he, k, hheld⟩⟩)
  | execute i u hrun _ hdecode heffect =>
    by_cases hi : ∃ x, i = .waitk x
    · obtain ⟨x, rfl⟩ := hi
      exact .inr (.inr ⟨hrun, x, hdecode⟩)
    · obtain ⟨-, hb⟩ := heffect.wait_eq (not_exists.mp hi)
      exact .inl hb
  | _ => exact .inl rfl

/-- Settles O45: the cases in which BLOCKED changes. -/
theorem blockedChangesOnlyByWaitAndPoll : Obligations.BlockedChangesOnlyByWaitAndPoll := by
  intro s t h
  obtain hsame | ⟨hclear, hwhy⟩ | ⟨hrun, hwait⟩ := (step_effect h).blocked_cases
  · exact ⟨fun hs ht => absurd (hs.symm.trans (hsame.symm.trans ht)) (by decide),
      fun hs ht => absurd (hs.symm.trans (hsame.symm.trans ht)) (by decide)⟩
  · exact ⟨fun _ ht => absurd (hclear.symm.trans ht) (by decide), fun _ _ => hwhy⟩
  · exact ⟨fun _ _ => ⟨hrun, hwait⟩, fun hs _ => absurd (hs.symm.trans hrun.notBlocked) (by decide)⟩

/-- Settles O47: among the instructions, and among the steps. -/
theorem timersChangeOnlyByTickAndSet : Obligations.TimersChangeOnlyByTickAndSet := by
  refine ⟨fun i s t h => ⟨(exec_effect h).dt_eq, (exec_effect h).st_eq⟩, fun s t h htick hreset => ?_⟩
  cases step_effect h with
  | reset image he => exact absurd he (hreset image)
  | tick he => exact absurd he htick
  | execute i u _ _ hdecode heffect =>
    refine ⟨fun hdt => ?_, fun hst => ?_⟩
    · by_contra hno
      exact hdt (heffect.dt_eq fun x hx => hno ⟨x, hx ▸ hdecode⟩)
    · by_contra hno
      exact hst (heffect.st_eq fun x hx => hno ⟨x, hx ▸ hdecode⟩)
  | _ => exact ⟨(absurd rfl ·), (absurd rfl ·)⟩

/-- Settles O53: neither an instruction nor another event writes the keys. -/
theorem keysWrittenOnlyBySetKey : Obligations.KeysWrittenOnlyBySetKey := by
  intro s t h hset
  cases step_effect h with
  | reset image =>
    obtain ⟨hkeys, -⟩ := s.takeEvent.resetWith_fields image
    exact hkeys
  | setKey code pressed he => exact absurd he (hset code pressed)
  | execute i u _ _ _ heffect =>
    obtain ⟨hkeys, -⟩ := heffect.host_eq
    exact hkeys
  | _ => rfl

/-- Settles O52: TICK, PAUSE and RESUME do nothing, and a STEP only reports that it is halted. -/
theorem faultFreezesTheCore : Obligations.FaultFreezesTheCore := by
  intro s t hf h
  cases step_effect h with
  | reset image he => exact ⟨fun _ hreset => absurd he (hreset image), fun hreset => absurd he (hreset image)⟩
  | tick _ hfrozen =>
    obtain ⟨rfl, rfl⟩ := hfrozen hf
    exact ⟨fun _ _ => rfl, fun _ => ⟨rfl, rfl⟩⟩
  | setKey code pressed he => exact ⟨fun hset _ => absurd he (hset code pressed), fun _ => ⟨rfl, rfl⟩⟩
  | pauseLatch hfrozen =>
    obtain rfl := hfrozen hf
    exact ⟨fun _ _ => rfl, fun _ => ⟨rfl, rfl⟩⟩
  | halted => exact ⟨fun _ _ => rfl, fun _ => ⟨rfl, rfl⟩⟩
  | paused hno => exact absurd hno hf
  | waiting hno => exact absurd hno hf
  | keyTaken _ _ hno => exact absurd hno hf
  | fetchFault hrun => exact absurd hrun.noFault hf
  | miss _ hrun => exact absurd hrun.noFault hf
  | execute _ _ hrun => exact absurd hrun.noFault hf

/-! ### Totality -/

/-- The cycle ends in a next state: a faulting fetch, a miss and every instruction do. -/
theorem State.cycle_next (s : State) : ∃ t, s.cycle = .next t := by
  unfold State.cycle
  split
  · exact ⟨_, rfl⟩
  · split
    · exact ⟨_, rfl⟩
    · rename_i i _
      obtain ⟨t, ht⟩ := exec_next i s.advance
      exact ⟨t.reportEnd, by rw [ht, conclude]⟩

/-- A step ends in a next state, whatever the event. -/
theorem step_next (s : State) : ∃ t, step s = .next t := by
  cases he : s.nextEvent with
  | step =>
    rw [step_of_step he, State.stepEvent]
    split_ifs
    · exact ⟨_, rfl⟩
    · exact ⟨_, rfl⟩
    · exact ⟨_, rfl⟩
    · exact s.takeEvent.cycle_next
  | _ => exact ⟨_, by rw [step, he, State.happen]⟩

/-- The parameters are the same after every step. -/
theorem StepEffect.cfg_eq (h : StepEffect s t) : t.cfg = s.cfg := by
  cases h with
  | reset image =>
    obtain ⟨-, hcfg, -⟩ := s.takeEvent.resetWith_fields image
    exact hcfg
  | execute i u _ _ _ heffect =>
    obtain ⟨-, -, hcfg, -⟩ := heffect.host_eq
    exact hcfg
  | _ => rfl

/-- Settles O60: totality, and the parameters. -/
theorem everyStateHasANextState : Obligations.EveryStateHasANextState := by
  intro s
  obtain ⟨t, ht⟩ := step_next s
  exact ⟨t, ht, (step_effect ht).cfg_eq⟩

end Sys2Proof.Machine
end
